-- ==== Sys2Proof/Word.lean ====
section
/-! DEFINITION. The word types of TRD: the unit of every buffer, chip register and operand is the 8-bit byte
(rules R60, R66); host registers are 32-bit values; bit 0 is the least significant bit (rule R9). -/

namespace Sys2Proof

/-- One byte: the unit of RXBUF, FBUF, the chip link and every command operand (R60). -/
abbrev Byte := BitVec 8

/-- The value of a host register and the data field of a response (R40, R96). -/
abbrev Word32 := BitVec 32

end Sys2Proof
end

