-- ==== Sys2Proof/Config.lean ====
section
/-! DEFINITION. What an integrator fixes (the record `Cfg` of rules R7 and R8) and the free values, which the
spec leaves to the environment (rules R50, R51, R72). The constants of rule R6 (80, 10, 17, 20, 0x31, 0x00, 400,
360, 0x42, 0x4D, 32, 30) stand as literals where they are used, as that rule asks. -/

namespace Sys2Proof

/-- One entry of `CFG_TABLE`: the address, and the value each of the two bands writes there. The two bands' tables
have the same length and the same address at every index (R7), so one list of entries holds both. -/
structure CfgEntry where
  addr : Byte
  val0 : Byte
  val1 : Byte
  deriving DecidableEq, Repr, Inhabited

/-- The configuration record. The first eight fields are the OPEN parameters of R7, without a value in the spec;
the others have the defaults of R8. `N_CFG` is the length of `table`; `BAND_MHZ` and `BusCodec`, which no rule
reads, are `Config.bandMHz` and `Config.busCodec` below. -/
structure Cfg where
  /-- `CFG_TABLE(0)` and `CFG_TABLE(1)`, entry by entry. -/
  table : List CfgEntry
  probeAddr : Byte
  probeExpect : Byte
  occAddr : Byte
  fifoAddr : Byte
  strobeFlushRx : Byte
  strobeEnterRx : Byte
  /-- Which bit of the status byte is the battery flag: 0 to 7. -/
  battLowBit : Fin 8
  occOvfMask : Byte := 0x80#8
  occCntMask : Byte := 0x7F#8
  probeFirst : Bool := false
  familyExpected : Byte := 0x24#8
  pmMassOff : Vector Nat 3 := #v[10, 12, 14]
  pmCntOff : Vector Nat 6 := #v[16, 18, 20, 22, 24, 26]
  /-- `TIME_W`: the width in bits of the `now` input and of the two time-stamp latches. -/
  timeW : Nat := 32
  deriving DecidableEq, Repr

/-- R7: the two bands' values differ at the three frequency-word entries at most. The table's length is not
constrained: "`N_CFG = 0` is allowed by the type" (R147 e). -/
def Cfg.tableWf (c : Cfg) : Bool := (c.table.countP fun e => e.val0 != e.val1) ≤ 3

/-- R8: the masks are disjoint, the overflow mask is nonzero, and the count mask is a nonempty run of adjacent
one bits: the mask plus its lowest one bit clears the whole run. -/
def Cfg.masksWf (c : Cfg) : Bool :=
  c.occOvfMask != 0 && (c.occOvfMask &&& c.occCntMask) == 0 && c.occCntMask != 0 &&
    (c.occCntMask &&& (c.occCntMask + (c.occCntMask &&& -c.occCntMask))) == 0

/-- R8: a field offset is even, and from 2 to 28, so that both its bytes lie in the summed field data. -/
def fieldOffsetWf (o : Nat) : Bool := o % 2 == 0 && 2 ≤ o && o ≤ 28

/-- R8, R317 (d). -/
def Cfg.offsetsWf (c : Cfg) : Bool :=
  fieldOffsetWf c.pmMassOff[0] && fieldOffsetWf c.pmMassOff[1] && fieldOffsetWf c.pmMassOff[2] &&
  fieldOffsetWf c.pmCntOff[0] && fieldOffsetWf c.pmCntOff[1] && fieldOffsetWf c.pmCntOff[2] &&
  fieldOffsetWf c.pmCntOff[3] && fieldOffsetWf c.pmCntOff[4] && fieldOffsetWf c.pmCntOff[5]

/-- R317 (f): the two strobe codes differ. -/
def Cfg.strobesWf (c : Cfg) : Bool := c.strobeFlushRx != c.strobeEnterRx

/-- The integrator's duties of R7, R8 and R317 (a), (c), (d), (f); (e) is the type of `battLowBit`, and (b), which
is about the chip, is no property of the record. -/
def Cfg.wf (c : Cfg) : Bool := c.tableWf && c.masksWf && c.offsetsWf && c.strobesWf

namespace Config

/-- A well-formed record exists; only its existence is used, by the opaque constant that follows. -/
@[reducible] def someCfg : Inhabited (Subtype fun c : Cfg => c.wf = true) :=
  ⟨⟨⟨[], 0, 0, 0, 0, 0, 1, 0, 0x80#8, 0x7F#8, false, 0x24#8, #v[10, 12, 14], #v[16, 18, 20, 22, 24, 26], 32⟩,
    by decide⟩⟩

/-- The OPEN parameters of the machine (R7): a well-formed record of which nothing more can be proved. -/
opaque openCfg [Inhabited (Subtype fun c : Cfg => c.wf = true)] : Subtype fun c : Cfg => c.wf = true

/-- The configuration of the machine at reset: the parameters of R7 OPEN, those of R8 at their defaults. -/
def cfg : Cfg :=
  let o := (@openCfg someCfg).val
  Cfg.mk o.table o.probeAddr o.probeExpect o.occAddr o.fifoAddr o.strobeFlushRx o.strobeEnterRx o.battLowBit
    0x80#8 0x7F#8 false 0x24#8 #v[10, 12, 14] #v[16, 18, 20, 22, 24, 26] 32

/-- Byte `k` of the answer stream of command number `n` where no answer was written out for it: any value (R72). -/
opaque freeAnswer : Nat → Nat → Byte

/-- The `now` input of command number `n` where no value was written out for it: any value (R50). -/
opaque freeNow : Nat → Nat

/-- `BAND_MHZ(b)` (R7): the frequency a band stands for. No rule reads it. DESIGN CHOICE (log entry 20): R7 says
"number", and whole megahertz are taken. -/
opaque bandMHz : BitVec 1 → Nat

/-- `BusCodec` (R7): the byte exchanges of a B-format word on the chip link. No rule reads it. DESIGN CHOICE (log entry
20): R98 leaves their form open, and a plain list of bytes is taken, with neither direction nor chip-select framing. -/
opaque busCodec : BitVec 20 → List Byte

end Config

end Sys2Proof
end

