-- ==== Sys2Proof/Syntax.lean ====
section
/-! DEFINITION. The instructions of TRD, one constructor per row of spec/opcode_table.json: the eight host
commands of the H-format (R92), the five bus events of the B-format (R99), the four micro-operations of U4 and the
four of the CRC engine (R101). Beside them: the words of the four ports, the bus events as a trace records them,
and the names of the host registers (R40). -/

namespace Sys2Proof

/-- One row of spec/opcode_table.json each. The bits marked `x` in the rows SUM_HOLD, SUM_CLR, CRC_HOLD and CRC_CLR
are ignored by the hardware (R100) and are no operand. -/
inductive Instr where
  /-- `INIT b` (R145). -/
  | init (b : BitVec 1)
  /-- `POLL` (R155). -/
  | poll
  /-- `DECODE` (R180). -/
  | decode
  /-- `PUSH d` (R212). -/
  | push (d : Byte)
  /-- `RD r` (R250). -/
  | rd (r : Byte)
  /-- `RDBUF i` (R252). -/
  | rdbuf (i : Byte)
  /-- `LDBUF d` (R254). -/
  | ldbuf (d : Byte)
  /-- `CLRBUF` (R256). -/
  | clrbuf
  /-- `WREG a, v` (R121). -/
  | wreg (a v : Byte)
  /-- `RREG a` (R122). -/
  | rreg (a : Byte)
  /-- `RBURST a, n` (R123). -/
  | rburst (a n : Byte)
  /-- `STROBE c` (R124). -/
  | strobe (c : Byte)
  /-- `WAIT ms` (R125). -/
  | wait (ms : Byte)
  /-- `SUM_HOLD` (R241). -/
  | sumHold
  /-- `SUM_ADD d` (R242). -/
  | sumAdd (d : Byte)
  /-- `SUM_CLR` (R243). -/
  | sumClr
  /-- `SUM_LOAD d` (R244). -/
  | sumLoad (d : Byte)
  /-- `CRC_HOLD` (R174). -/
  | crcHold
  /-- `CRC_BYTE d` (R175). -/
  | crcByte (d : Byte)
  /-- `CRC_CLR` (R176). -/
  | crcClr
  /-- `CRC_LOAD d` (R177). -/
  | crcLoad (d : Byte)
  deriving DecidableEq, Repr

/-- A word as it stands at one of the four ports of TRD's units (R90). KS and KC words have the same ten bits; only
the port tells them apart (R100). -/
inductive PortWord where
  /-- The host port: a 16-bit H-format word. -/
  | host (w : BitVec 16)
  /-- The bus port (U1 to the RegisterBus serialiser or the delay timer): a 20-bit B-format word. -/
  | bus (w : BitVec 20)
  /-- U4's control port: a 10-bit KS word. -/
  | sum (w : BitVec 10)
  /-- The CRC engine's control port: a 10-bit KC word. -/
  | crc (w : BitVec 10)
  deriving DecidableEq, Repr

/-- A bus event: one chip-link transaction or one delay request (R98, R99). -/
inductive BusEvent where
  | wreg (a v : Byte)
  | rreg (a : Byte)
  | rburst (a n : Byte)
  | strobe (c : Byte)
  | wait (ms : Byte)
  deriving DecidableEq, Repr

/-- The implemented host registers, in the order of R40. -/
inductive HostReg where
  | status | rxlen | wxLast | pmLast | cur | sum16 | crc8
  | wxTemp | wxHum | wxWdir | wxWspd | wxGust | wxRain | wxUv | wxLux | wxBattOk | wxTime
  | pmMass0 | pmMass1 | pmMass2
  | pmCnt0 | pmCnt1 | pmCnt2 | pmCnt3 | pmCnt4 | pmCnt5 | pmTime
  deriving DecidableEq, Repr

end Sys2Proof
end

