-- ==== Sys2Proof/WellFormed.lean ====
section
/-! DEFINITION. Which instructions are well formed. Operand widths are in the types of `Instr`; the one check left
is the burst length of RBURST, 1 to 80 (R99, R123, R105). -/

namespace Sys2Proof

/-- R99, R105: a burst reads 1 to 80 bytes. -/
def burstLengthOk (n : Byte) : Bool := 1 ≤ n.toNat && n.toNat ≤ 80

/-- Every instruction but an RBURST with a length outside 1 to 80. -/
def Instr.wf : Instr → Bool
  | .init _ => true
  | .poll => true
  | .decode => true
  | .push _ => true
  | .rd _ => true
  | .rdbuf _ => true
  | .ldbuf _ => true
  | .clrbuf => true
  | .wreg _ _ => true
  | .rreg _ => true
  | .rburst _ n => burstLengthOk n
  | .strobe _ => true
  | .wait _ => true
  | .sumHold => true
  | .sumAdd _ => true
  | .sumClr => true
  | .sumLoad _ => true
  | .crcHold => true
  | .crcByte _ => true
  | .crcClr => true
  | .crcLoad _ => true

/-- Which instructions the host can issue: the H-format commands (R92). The others are internal (R100, R105). -/
def Instr.isHost : Instr → Bool
  | .init _ => true
  | .poll => true
  | .decode => true
  | .push _ => true
  | .rd _ => true
  | .rdbuf _ => true
  | .ldbuf _ => true
  | .clrbuf => true
  | .wreg _ _ => false
  | .rreg _ => false
  | .rburst _ _ => false
  | .strobe _ => false
  | .wait _ => false
  | .sumHold => false
  | .sumAdd _ => false
  | .sumClr => false
  | .sumLoad _ => false
  | .crcHold => false
  | .crcByte _ => false
  | .crcClr => false
  | .crcLoad _ => false

end Sys2Proof
end

