-- ==== Sys2Proof/Decode.lean ====
section
/-! DEFINITION. From the word at a port to an instruction or a rejection by name (R91 to R93, R98 to R101, R104,
R105), and the encoder, written from the same tables. The rows of the opcode tables themselves (match and mask) stand
at the end, so that the field-by-field decoder can be compared with them. -/

namespace Sys2Proof

/-- Why a word is no instruction. -/
inductive DecodeError where
  /-- A 16-bit word that matches no row of R92: a reserved command (R104). Safe: the machine answers it. -/
  | reservedCommand
  /-- A 20-bit word whose `kind` is none of 0x1, 0x2, 0x3, 0x4, 0x8 (R105). -/
  | busKind
  /-- A 20-bit word with a nonzero field where its row has 0: `d` of RREG and STROBE, `a` of WAIT (R105). -/
  | busOperand
  deriving DecidableEq, Repr

/-- What the decoder answers. -/
inductive Decoded where
  | instr (i : Instr)
  | rejected (e : DecodeError)
  deriving DecidableEq, Repr

/-- The instruction decoded, if there is one. -/
def Decoded.toOption : Decoded → Option Instr
  | .instr i => some i
  | .rejected _ => none

/-- Bits 15:12 (R91). -/
def opField (w : BitVec 16) : BitVec 4 := w.extractLsb' 12 4

/-- Bits 11:8, zero in every defined command (R91). -/
def zField (w : BitVec 16) : BitVec 4 := w.extractLsb' 8 4

/-- Bits 7:0 (R91). -/
def immField (w : BitVec 16) : Byte := w.extractLsb' 0 8

/-- The H-format decoder (R92, R93, R104). -/
def decodeHost (w : BitVec 16) : Decoded :=
  let imm := immField w
  if zField w ≠ 0x0#4 then .rejected .reservedCommand
  else if opField w = 0x1#4 then
    if imm.extractLsb' 1 7 = 0#7 then .instr (.init (imm.extractLsb' 0 1)) else .rejected .reservedCommand
  else if opField w = 0x2#4 then
    if imm = 0x00#8 then .instr .poll else .rejected .reservedCommand
  else if opField w = 0x3#4 then
    if imm = 0x00#8 then .instr .decode else .rejected .reservedCommand
  else if opField w = 0x4#4 then .instr (.push imm)
  else if opField w = 0x5#4 then .instr (.rd imm)
  else if opField w = 0x6#4 then .instr (.rdbuf imm)
  else if opField w = 0x7#4 then .instr (.ldbuf imm)
  else if opField w = 0x8#4 then
    if imm = 0x00#8 then .instr .clrbuf else .rejected .reservedCommand
  else .rejected .reservedCommand

/-- Bits 19:16 of a B-format word (R98). -/
def kindField (w : BitVec 20) : BitVec 4 := w.extractLsb' 16 4

/-- Bits 15:8 of a B-format word (R98). -/
def aField (w : BitVec 20) : Byte := w.extractLsb' 8 8

/-- Bits 7:0 of a B-format word (R98). -/
def dField (w : BitVec 20) : Byte := w.extractLsb' 0 8

/-- The B-format decoder (R99, R105). An RBURST row matches whatever its length is (mask 0xF0000); a length outside
1 to 80 makes an instruction that is not well formed, and its execution is refused (log entry 8). -/
def decodeBus (w : BitVec 20) : Decoded :=
  if kindField w = 0x1#4 then .instr (.wreg (aField w) (dField w))
  else if kindField w = 0x2#4 then
    if dField w = 0x00#8 then .instr (.rreg (aField w)) else .rejected .busOperand
  else if kindField w = 0x3#4 then .instr (.rburst (aField w) (dField w))
  else if kindField w = 0x4#4 then
    if dField w = 0x00#8 then .instr (.strobe (aField w)) else .rejected .busOperand
  else if kindField w = 0x8#4 then
    if aField w = 0x00#8 then .instr (.wait (dField w)) else .rejected .busOperand
  else .rejected .busKind

/-- The KS-format decoder: `{clr, en, d}`, `d` ignored when `en` is 0 (R100, R101). -/
def decodeSum (w : BitVec 10) : Decoded :=
  let d : Byte := w.extractLsb' 0 8
  if w.getLsbD 9 then
    if w.getLsbD 8 then .instr (.sumLoad d) else .instr .sumClr
  else
    if w.getLsbD 8 then .instr (.sumAdd d) else .instr .sumHold

/-- The KC-format decoder: the same layout, for the CRC engine (R100, R101). -/
def decodeCrc (w : BitVec 10) : Decoded :=
  let d : Byte := w.extractLsb' 0 8
  if w.getLsbD 9 then
    if w.getLsbD 8 then .instr (.crcLoad d) else .instr .crcClr
  else
    if w.getLsbD 8 then .instr (.crcByte d) else .instr .crcHold

/-- The decoder: the port tells which format a word has (R90). -/
def decode : PortWord → Decoded
  | .host w => decodeHost w
  | .bus w => decodeBus w
  | .sum w => decodeSum w
  | .crc w => decodeCrc w

/-! ### The encoder -/

/-- `oooo zzzz iiii iiii` with `z` zero (R91). -/
def hWord (op : BitVec 4) (imm : Byte) : BitVec 16 := op ++ 0x0#4 ++ imm

/-- `kkkk aaaa aaaa dddd dddd` (R98). -/
def bWord (kind : BitVec 4) (a d : Byte) : BitVec 20 := kind ++ a ++ d

/-- `c e dddd dddd` (R100). -/
def kWord (clr en : BitVec 1) (d : Byte) : BitVec 10 := clr ++ en ++ d

/-- The port an instruction is issued on and its word there (R92, R99, R101); ignored bits are 0. -/
def encode : Instr → PortWord
  | .init b => .host (hWord 0x1#4 (0#7 ++ b))
  | .poll => .host (hWord 0x2#4 0x00#8)
  | .decode => .host (hWord 0x3#4 0x00#8)
  | .push d => .host (hWord 0x4#4 d)
  | .rd r => .host (hWord 0x5#4 r)
  | .rdbuf i => .host (hWord 0x6#4 i)
  | .ldbuf d => .host (hWord 0x7#4 d)
  | .clrbuf => .host (hWord 0x8#4 0x00#8)
  | .wreg a v => .bus (bWord 0x1#4 a v)
  | .rreg a => .bus (bWord 0x2#4 a 0x00#8)
  | .rburst a n => .bus (bWord 0x3#4 a n)
  | .strobe c => .bus (bWord 0x4#4 c 0x00#8)
  | .wait ms => .bus (bWord 0x8#4 0x00#8 ms)
  | .sumHold => .sum (kWord 0#1 0#1 0x00#8)
  | .sumAdd d => .sum (kWord 0#1 1#1 d)
  | .sumClr => .sum (kWord 1#1 0#1 0x00#8)
  | .sumLoad d => .sum (kWord 1#1 1#1 d)
  | .crcHold => .crc (kWord 0#1 0#1 0x00#8)
  | .crcByte d => .crc (kWord 0#1 1#1 d)
  | .crcClr => .crc (kWord 1#1 0#1 0x00#8)
  | .crcLoad d => .crc (kWord 1#1 1#1 d)

/-- The instruction that performs a bus event alone. -/
def BusEvent.instr : BusEvent → Instr
  | .wreg a v => .wreg a v
  | .rreg a => .rreg a
  | .rburst a n => .rburst a n
  | .strobe c => .strobe c
  | .wait ms => .wait ms

/-- The B-format word of a bus event (R98, R99). -/
def BusEvent.word : BusEvent → BitVec 20
  | .wreg a v => bWord 0x1#4 a v
  | .rreg a => bWord 0x2#4 a 0x00#8
  | .rburst a n => bWord 0x3#4 a n
  | .strobe c => bWord 0x4#4 c 0x00#8
  | .wait ms => bWord 0x8#4 0x00#8 ms

/-! ### Words numbered as spec/opcode_table.json numbers them -/

/-- The port word for `nbits` table bits of value `w` (log entry 9): more than 16 bits, a B-format word; up to 16
bits, an H-format word, unless only the low ten bits can be set, which no H-format row allows: then a K-format word,
read as one of U4's, since the table gives the CRC engine's rows the very same bits. -/
def tableWord (nbits w : Nat) : PortWord :=
  if 16 < nbits then .bus (BitVec.ofNat 20 w)
  else if nbits ≤ 10 ∨ w < 0x400 then .sum (BitVec.ofNat 10 w)
  else .host (BitVec.ofNat 16 w)

/-- The instruction the decoder reads from a table word, if it reads one. -/
def decodeTableWord (nbits w : Nat) : Option Instr := (decode (tableWord nbits w)).toOption

/-! ### The rows of the opcode tables -/

/-- A row's match and mask: a word is the row's when it agrees with `pat` on the bits of `mask` (R92). -/
structure Row (n : Nat) where
  pat : BitVec n
  mask : BitVec n
  deriving DecidableEq, Repr

/-- R92: `w` is the row's word when `(w & mask) = match`. -/
def Row.matches {n : Nat} (r : Row n) (w : BitVec n) : Bool := (w &&& r.mask) == r.pat

/-- The H-format map of R92, in its order: INIT, POLL, DECODE, PUSH, RD, RDBUF, LDBUF, CLRBUF. -/
def hostRows : List (Row 16) :=
  [⟨0x1000#16, 0xFFFE#16⟩, ⟨0x2000#16, 0xFFFF#16⟩, ⟨0x3000#16, 0xFFFF#16⟩, ⟨0x4000#16, 0xFF00#16⟩,
   ⟨0x5000#16, 0xFF00#16⟩, ⟨0x6000#16, 0xFF00#16⟩, ⟨0x7000#16, 0xFF00#16⟩, ⟨0x8000#16, 0xFFFF#16⟩]

/-- The B-format map of R99, in its order: WREG, RREG, RBURST, STROBE, WAIT. -/
def busRows : List (Row 20) :=
  [⟨0x10000#20, 0xF0000#20⟩, ⟨0x20000#20, 0xF00FF#20⟩, ⟨0x30000#20, 0xF0000#20⟩, ⟨0x40000#20, 0xF00FF#20⟩,
   ⟨0x80000#20, 0xFFF00#20⟩]

/-- The K-format map of R101, in its order: HOLD, ADD or BYTE, CLR, LOAD. -/
def kRows : List (Row 10) :=
  [⟨0x000#10, 0x300#10⟩, ⟨0x100#10, 0x300#10⟩, ⟨0x200#10, 0x300#10⟩, ⟨0x300#10, 0x300#10⟩]

end Sys2Proof
end

