-- ==== Sys2Proof/Machine/State.lean ====
section
/-! DEFINITION. The state of TRD (rules R20 to R37, R55) as plain data, grouped by unit, and beside it the inputs and
the outputs of the step, which rule R11 makes arguments and results of the step function and which this machine, a
function of its state alone, holds as data: the configuration, the pending commands with their `now` value and
answers, the response and the event list. -/

namespace Sys2Proof.Machine

open Sys2Proof

/-- A byte buffer: address and byte, addresses strictly rising, no entry equal to what an unlisted address reads as. -/
abbrev Memory := List Host.Cell

/-- `DRV_STATE` (R24), in the order of its numbers 0 to 3. -/
inductive DrvState where
  | idle | armed | draining | rearm
  deriving DecidableEq, Repr

/-- `SYNC_STATE` (R31), in the order of its numbers 0 to 2; 3 is never reached and is no value here. -/
inductive SyncState where
  | first | second | acc
  deriving DecidableEq, Repr

/-- The outcome codes (R270). `bufferOverflow` is internal: it names a case and stands in no response (R272). -/
inductive Code where
  | ok | noData | eChipNotDetected | bufferOverflow | eTooShort | eWxChecksum | ePmChecksum | eRange | eIllegalCmd
  deriving DecidableEq, Repr

/-- A response, `{code, data}` (R96). -/
structure Rsp where
  code : Code
  data : Word32
  deriving DecidableEq, Repr

/-- One entry of a command's event list: the bus event and the bytes the environment answered, none for an event
that has no answer (R72, R98). -/
structure BusRecord where
  event : BusEvent
  answer : List Byte
  deriving DecidableEq, Repr

/-- One pending use of a port: the word, and the environment's inputs for it (R11, R50, R51). `now` is `none` where
no value is written out: then it is a free value. `answers` are the first bytes of the command's answer stream; the
bytes after them are free values. -/
structure Request where
  word : PortWord
  now : Option Nat
  answers : List Byte
  deriving DecidableEq, Repr

/-- The weather result latches (R29), fixed point as R190 says. `time` has `TIME_W` bits. -/
structure WxReading where
  valid : Bool
  temp : BitVec 13
  hum : Byte
  wdir : BitVec 9
  wspd : BitVec 14
  gust : BitVec 14
  rain : BitVec 24
  uv : Byte
  lux : BitVec 32
  battOk : Bool
  time : Nat
  deriving DecidableEq, Repr

/-- The particulate result latches (R36). `time` has `TIME_W` bits. -/
structure PmReading where
  valid : Bool
  mass : Vector (BitVec 16) 3
  cnt : Vector (BitVec 16) 6
  time : Nat
  deriving DecidableEq, Repr

/-- Unit U1, the driver and the receive buffer (R22 to R25). -/
structure Driver where
  chipOk : Bool
  band : BitVec 1
  drvState : DrvState
  rxbuf : Memory
  rxlen : Fin 81
  deriving DecidableEq, Repr

/-- Unit U2, the CRC register, the last outcome, and the weather latches (R27 to R29). -/
structure Weather where
  crc8 : Byte
  wxLast : Byte
  familyWarn : Bool
  reading : WxReading
  deriving DecidableEq, Repr

/-- Unit U3, the frame assembly, its last outcome, and the particulate latches (R31 to R34, R36). -/
structure Sync where
  syncState : SyncState
  cur : Fin 32
  fbuf : Memory
  pmLast : Byte
  reading : PmReading
  deriving DecidableEq, Repr

/-- The inputs of the step (R11): the pending requests, oldest first, and what the command now executing was given.
`ansPos` counts the answer bytes it has taken; `cmdNo` counts the requests accepted since reset and, in this model
only, tells the free values of different commands apart. -/
structure Inputs where
  requests : List Request
  now : Nat
  answers : List Byte
  ansPos : Nat
  cmdNo : Nat
  deriving DecidableEq, Repr

/-- The outputs of the step (R11): the response of the last command, `none` before the first one and after a bus
event or a micro-operation, which have none; and its event list, in order (R98). -/
structure Outputs where
  rsp : Option Rsp
  trace : List BusRecord
  deriving DecidableEq, Repr

/-- The state. `cfg` is the configuration record, which no instruction changes (R82); `u1`, `u2`, `u3` and `sum16`
are the spec's state (R21); `inp` and `out` are the inputs and outputs of the step. -/
structure State where
  cfg : Cfg
  u1 : Driver
  u2 : Weather
  u3 : Sync
  /-- `SUM16` of unit U4 (R35). -/
  sum16 : BitVec 16
  inp : Inputs
  out : Outputs
  deriving DecidableEq, Repr

/-- TRD has no fault: "every command in every state with every answer has a defined next state" (R11, R280). So
nothing is raised, and the type has no constructor. Safe. -/
inductive Fault : Type
  deriving DecidableEq, Repr

/-- Why a word at a port is not executed. -/
inductive Refusal where
  /-- An instruction without a meaning yet; raised by the dispatcher only. Safe. -/
  | notModelled (mnemonic : String)
  /-- Raised by the step for a B-format word outside R99: the serialiser "has no defined behaviour" (R105). Safe. -/
  | undefinedBusWord (e : DecodeError)
  /-- Raised by RBURST with a length outside 1 to 80: outside R99, "no defined behaviour" (R105). Safe. -/
  | burstLength
  deriving DecidableEq, Repr

/-- The weather latches at reset (R55). -/
def WxReading.reset : WxReading :=
  { valid := false, temp := 0, hum := 0, wdir := 0, wspd := 0, gust := 0, rain := 0, uv := 0, lux := 0,
    battOk := false, time := 0 }

/-- The particulate latches at reset (R55). -/
def PmReading.reset : PmReading :=
  { valid := false, mass := #v[0, 0, 0], cnt := #v[0, 0, 0, 0, 0, 0], time := 0 }

/-- The machine right after reset (R55, R310); nothing is pending, answered or emitted. -/
def State.reset : State :=
  { cfg := Config.cfg
    u1 := { chipOk := false, band := 0, drvState := .idle, rxbuf := [], rxlen := 0 }
    u2 := { crc8 := 0x00#8, wxLast := 0xFF#8, familyWarn := false, reading := WxReading.reset }
    u3 := { syncState := .first, cur := 0, fbuf := [], pmLast := 0xFF#8, reading := PmReading.reset }
    sum16 := 0x0000#16
    inp := { requests := [], now := 0, answers := [], ansPos := 0, cmdNo := 0 }
    out := { rsp := none, trace := [] } }

end Sys2Proof.Machine
end

