-- ==== Sys2Proof/Machine/Ops.lean ====
section
/-! DEFINITION. The operations the instructions are made of: reading and writing a byte buffer, taking an answer,
performing a bus event, the re-arm pair, giving a response, and accepting a request. TRD takes no exception and
returns from none (R280, R290): an error outcome is a response like any other, so `State.respond` stands where another
machine enters a handler. -/

namespace Sys2Proof.Machine

open Sys2Proof

/-! ### Byte buffers (R25, R33, R60) -/

/-- What an unlisted address of a buffer reads as: zero, as R312 allows ("initialise them to zero without loss"). -/
def Memory.unlisted : Byte := 0x00#8

/-- Read one byte. -/
def Memory.read : Memory → Nat → Byte
  | [], _ => Memory.unlisted
  | (a, b) :: m, k => if a = k then b else Memory.read m k

/-- Write one byte, keeping the canonical form. -/
def Memory.write : Memory → Nat → Byte → Memory
  | [], k, v => if v = Memory.unlisted then [] else [(k, v)]
  | (a, b) :: m, k, v =>
    if k < a then
      if v = Memory.unlisted then (a, b) :: m else (k, v) :: (a, b) :: m
    else if k = a then
      if v = Memory.unlisted then m else (k, v) :: m
    else (a, b) :: Memory.write m k v

/-- Write a list of bytes to consecutive addresses (R64). -/
def Memory.writeList : Memory → Nat → List Byte → Memory
  | m, _, [] => m
  | m, k, b :: bs => Memory.writeList (Memory.write m k b) (k + 1) bs

/-- Every address listed is at least `lo` and below `size`, addresses rise strictly, and no entry is the value an
unlisted address reads as. -/
def Memory.wfFrom (size : Nat) : Nat → Memory → Bool
  | _, [] => true
  | lo, (a, b) :: m => decide (lo ≤ a) && decide (a < size) && b != Memory.unlisted && Memory.wfFrom size (a + 1) m

/-- The canonical form of a buffer of `size` bytes. -/
def Memory.wf (size : Nat) (m : Memory) : Bool := Memory.wfFrom size 0 m

/-- The first `n` bytes of the receive buffer, in index order. -/
def State.rxBytes (s : State) (n : Nat) : List Byte := (List.range n).map fun k => Memory.read s.u1.rxbuf k

/-! ### Answers and bus events (R72, R98, R120) -/

/-- Byte `k` of the answer stream of the command now executing: as written out, else a free value (R72). -/
def State.answerAt (s : State) (k : Nat) : Byte :=
  match s.inp.answers[k]? with
  | some b => b
  | none => Config.freeAnswer s.inp.cmdNo k

/-- The next `n` answer bytes. -/
def State.answerBytes (s : State) (n : Nat) : List Byte :=
  (List.range n).map fun k => s.answerAt (s.inp.ansPos + k)

/-- The next answer byte. -/
def State.nextAnswer (s : State) : Byte := s.answerAt s.inp.ansPos

/-- How many bytes the environment answers an event with (R72, R99). -/
def answerLen : BusEvent → Nat
  | .wreg _ _ => 0
  | .rreg _ => 1
  | .rburst _ n => n.toNat
  | .strobe _ => 0
  | .wait _ => 0

/-- Perform one bus event: it goes to the end of the event list with its answer, and the answer bytes are taken. No
other state is read or written (R120). -/
def State.perform (e : BusEvent) (s : State) : State :=
  { s with
    inp := { s.inp with ansPos := s.inp.ansPos + answerLen e }
    out := { s.out with trace := s.out.trace ++ [⟨e, s.answerBytes (answerLen e)⟩] } }

/-! ### Register writes of unit U1 -/

/-- `S.DRV_STATE <- d` (R24). -/
def State.setDrv (d : DrvState) (s : State) : State := { s with u1 := { s.u1 with drvState := d } }

/-- `S.CHIP_OK <- b` (R22). -/
def State.setChipOk (b : Bool) (s : State) : State := { s with u1 := { s.u1 with chipOk := b } }

/-- `S.BAND <- b` (R23). -/
def State.setBand (b : BitVec 1) (s : State) : State := { s with u1 := { s.u1 with band := b } }

/-- `S.RXLEN <- n` (R25). -/
def State.setRxLen (n : Fin 81) (s : State) : State := { s with u1 := { s.u1 with rxlen := n } }

/-- `RXBUF[k] <- b`, for the bytes `bs` from index 0 on (R64). -/
def State.storeRx (bs : List Byte) (s : State) : State :=
  { s with u1 := { s.u1 with rxbuf := Memory.writeList s.u1.rxbuf 0 bs } }

/-- The value `CFG_TABLE(b)` gives an entry (R142, R143). -/
def entryVal (b : BitVec 1) (e : CfgEntry) : Byte := if b = 0#1 then e.val0 else e.val1

/-- One WREG per table entry, in list order (R143). -/
def State.writeTable (b : BitVec 1) : List CfgEntry → State → State
  | [], s => s
  | e :: es, s => State.writeTable b es (s.perform (.wreg e.addr (entryVal b e)))

/-- REARM (R130): flush, then enter receive. -/
def State.rearm (s : State) : State :=
  let s1 := s.setDrv .rearm
  let s2 := s1.perform (.strobe s.cfg.strobeFlushRx)
  let s3 := s2.perform (.strobe s.cfg.strobeEnterRx)
  s3.setDrv .armed

/-! ### Responses (R96, R270) -/

/-- The 8-bit value of an outcome code (R270). -/
def Code.byte : Code → Byte
  | .ok => 0x00#8
  | .noData => 0x01#8
  | .eChipNotDetected => 0x10#8
  | .bufferOverflow => 0x11#8
  | .eTooShort => 0x20#8
  | .eWxChecksum => 0x21#8
  | .ePmChecksum => 0x30#8
  | .eRange => 0x40#8
  | .eIllegalCmd => 0x7F#8

/-- The 40-bit RSP word `{code, data}` (R96). -/
def Rsp.word (r : Rsp) : BitVec 40 := r.code.byte ++ r.data

/-- `return (code, data)` (R10): the whole of what an outcome does, an error outcome too (R280). -/
def State.respond (c : Code) (d : Word32) (s : State) : State :=
  { s with out := { s.out with rsp := some ⟨c, d⟩ } }

/-! ### Time and requests (R11, R50) -/

/-- `now`: the `TIME_W`-bit time input of the command now executing (R50). -/
def State.sampleNow (s : State) : Nat := s.inp.now % 2 ^ s.cfg.timeW

/-- Take a request: its `now` value and answers become the inputs of the command, and the outputs of the command
before it are cleared. -/
def State.accept (r : Request) (rest : List Request) (s : State) : State :=
  { s with
    inp :=
      { requests := rest
        now := r.now.getD (Config.freeNow s.inp.cmdNo)
        answers := r.answers
        ansPos := 0
        cmdNo := s.inp.cmdNo + 1 }
    out := { rsp := none, trace := [] } }

/-- A word that is no instruction: a reserved command is answered with `E_ILLEGAL_CMD` and changes nothing (R104); a
B-format word outside R99 has no defined behaviour and is refused (R105). -/
def rejectWord (e : DecodeError) (s : State) : Host.Outcome State Fault Refusal :=
  match e with
  | .reservedCommand => .next (s.respond .eIllegalCmd 0)
  | .busKind => .refused (.undefinedBusWord .busKind)
  | .busOperand => .refused (.undefinedBusWord .busOperand)

/-- The request that places a table word at the machine's port, its inputs left free. -/
def requestOf (nbits w : Nat) : Request := { word := tableWord nbits w, now := none, answers := [] }

/-- Put a request before all others. -/
def State.pushRequest (r : Request) (s : State) : State :=
  { s with inp := { s.inp with requests := r :: s.inp.requests } }

end Sys2Proof.Machine
end

