-- ==== Sys2Proof/Machine/Flags.lean ====
section
/-! DEFINITION. Flags and checksums: the overflow flag and the count of an occupancy byte (R8), the CRC-8 register
(R172 to R177), the 16-bit sum (R240 to R244), the family warning and the battery flag (R183, R191), and the STATUS
register (R41). -/

namespace Sys2Proof.Machine

open Sys2Proof

/-! ### The occupancy status byte (R8) -/

/-- `ovf(s)`. -/
def occOverflow (c : Cfg) (s : Byte) : Bool := (s &&& c.occOvfMask) != 0x00#8

/-- `t`: the number of the lowest one bit of the count mask. -/
def occShift (c : Cfg) : Nat := ((List.range 8).find? fun t => c.occCntMask.getLsbD t).getD 0

/-- `cnt(s)`. -/
def occCount (c : Cfg) (s : Byte) : Nat := ((s &&& c.occCntMask) >>> occShift c).toNat

/-! ### CRC-8 (R172, R173) -/

/-- One shift to the left, with the polynomial when bit 7 was one. -/
def crc8Shift (c : Byte) : Byte := if c.getLsbD 7 then (c <<< 1) ^^^ 0x31#8 else c <<< 1

/-- `k` shifts. -/
def crc8Shifts : Nat → Byte → Byte
  | 0, c => c
  | k + 1, c => crc8Shifts k (crc8Shift c)

/-- `crc8_step(c, d)` (R173). -/
def crc8Step (c d : Byte) : Byte := crc8Shifts 8 (c ^^^ d)

/-- `crc8(bytes)` (R172): initial value 0x00, no final XOR. -/
def crc8 (bs : List Byte) : Byte := bs.foldl crc8Step 0x00#8

/-- The CRC engine's control port (R100, R101, R174 to R177): clear takes effect before the byte. -/
def crcNext (clr en : Bool) (d c : Byte) : Byte :=
  let c0 := if clr then 0x00#8 else c
  if en then crc8Step c0 d else c0

/-- Drive the CRC engine. -/
def State.driveCrc (clr en : Bool) (d : Byte) (s : State) : State :=
  { s with u2 := { s.u2 with crc8 := crcNext clr en d s.u2.crc8 } }

/-- One `CRC_BYTE` per byte, in order (R175, R180). -/
def State.crcBytes : List Byte → State → State
  | [], s => s
  | b :: bs, s => State.crcBytes bs (s.driveCrc false true b)

/-! ### The 16-bit sum (R240) -/

/-- U4's control port: `SUM16' = ((clr ? 0 : SUM16) + (en ? zext_16(d) : 0)) mod 65536`. -/
def sumNext (clr en : Bool) (d : Byte) (x : BitVec 16) : BitVec 16 :=
  (if clr then 0#16 else x) + (if en then d.zeroExtend 16 else 0#16)

/-- Drive the accumulator. -/
def State.driveSum (clr en : Bool) (d : Byte) (s : State) : State :=
  { s with sum16 := sumNext clr en d s.sum16 }

/-! ### Flags of a weather frame (R183, R191) -/

/-- R183: the first byte differs from `FAMILY_EXPECTED`. -/
def familyWarnOf (c : Cfg) (b0 : Byte) : Bool := b0 != c.familyExpected

/-- R191: battery OK when the flag bit of the status byte is 0. -/
def battOkOf (c : Cfg) (b4 : Byte) : Bool := !b4.getLsbD c.battLowBit.val

/-! ### State numbers and STATUS (R24, R31, R41) -/

/-- The number of a `DRV_STATE` (R24). -/
def drvNum : DrvState → BitVec 2
  | .idle => 0#2
  | .armed => 1#2
  | .draining => 2#2
  | .rearm => 3#2

/-- The number of a `SYNC_STATE` (R31). -/
def syncNum : SyncState → BitVec 2
  | .first => 0#2
  | .second => 1#2
  | .acc => 2#2

/-- `STATUS` (R41), most significant field first: reserved 31:10, `SYNC_STATE` 9:8, reserved 7, `DRV_STATE` 6:5,
`BAND` 4, `WX_FAMILY_WARN` 3, `PM_VALID` 2, `WX_VALID` 1, `CHIP_OK` 0. -/
def statusWord (s : State) : Word32 :=
  0#22 ++ syncNum s.u3.syncState ++ 0#1 ++ drvNum s.u1.drvState ++ s.u1.band ++
    BitVec.ofBool s.u2.familyWarn ++ BitVec.ofBool s.u3.reading.valid ++ BitVec.ofBool s.u2.reading.valid ++
    BitVec.ofBool s.u1.chipOk

end Sys2Proof.Machine
end

