-- ==== Sys2Proof/Machine/Accumulator.lean ====
section
/-! DEFINITION. Unit U4's micro-operations (R241 to R244), over the one port of R240. -/

namespace Sys2Proof.Machine

open Sys2Proof

/-- `SUM_HOLD` (R241). -/
def execSumHold (s : State) : Host.Outcome State Fault Refusal := .next (s.driveSum false false 0)

/-- `SUM_ADD d` (R242). -/
def execSumAdd (d : Byte) (s : State) : Host.Outcome State Fault Refusal := .next (s.driveSum false true d)

/-- `SUM_CLR` (R243). -/
def execSumClr (s : State) : Host.Outcome State Fault Refusal := .next (s.driveSum true false 0)

/-- `SUM_LOAD d` (R244). -/
def execSumLoad (d : Byte) (s : State) : Host.Outcome State Fault Refusal := .next (s.driveSum true true d)

end Sys2Proof.Machine
end

