-- ==== Sys2Proof/Machine/Bus.lean ====
section
/-! DEFINITION. The five bus events as instructions of their own (R121 to R125): each performs its event and
nothing more; what becomes of an answer is for the command that emitted the event, so here it stands in the event list
only (R120). -/

namespace Sys2Proof.Machine

open Sys2Proof

/-- `WREG a, v` (R121). -/
def execWreg (a v : Byte) (s : State) : Host.Outcome State Fault Refusal := .next (s.perform (.wreg a v))

/-- `RREG a` (R122). -/
def execRreg (a : Byte) (s : State) : Host.Outcome State Fault Refusal := .next (s.perform (.rreg a))

/-- `RBURST a, n` (R123), for 1 to 80 bytes. Another length is outside R99 and "has no defined behaviour" (R105,
X9): it is refused. -/
def execRburst (a n : Byte) (s : State) : Host.Outcome State Fault Refusal :=
  if burstLengthOk n then .next (s.perform (.rburst a n)) else .refused .burstLength

/-- `STROBE c` (R124). -/
def execStrobe (c : Byte) (s : State) : Host.Outcome State Fault Refusal := .next (s.perform (.strobe c))

/-- `WAIT ms` (R125): the event marks its place in the order and has no duration in the model (R330). -/
def execWait (ms : Byte) (s : State) : Host.Outcome State Fault Refusal := .next (s.perform (.wait ms))

end Sys2Proof.Machine
end

