-- ==== Sys2Proof/Machine/Driver.lean ====
section
/-! DEFINITION. Unit U1's host commands INIT (R142 to R148) and POLL (R155 to R162). -/

namespace Sys2Proof.Machine

open Sys2Proof

/-- INIT after the probe, the byte `p` read: on a match the table writes (when the probe came first), the re-arm pair
and `CHIP_OK`; else failure (R145, R148). -/
def initFinish (b : BitVec 1) (p : Byte) (s : State) : State :=
  if p = s.cfg.probeExpect then
    let s1 := if s.cfg.probeFirst then s.writeTable b s.cfg.table else s
    (s1.rearm.setChipOk true).respond .ok (p.zeroExtend 32)
  else ((s.setChipOk false).setDrv .idle).respond .eChipNotDetected (p.zeroExtend 32)

/-- `INIT b` (R145; R148 with `PROBE_FIRST`). -/
def execInit (b : BitVec 1) (s : State) : Host.Outcome State Fault Refusal :=
  let s0 := s.setBand b
  let s1 := if s.cfg.probeFirst then s0 else s0.writeTable b s.cfg.table
  .next (initFinish b s1.nextAnswer (s1.perform (.rreg s.cfg.probeAddr)))

/-- The length of POLL's burst read: `min(cnt(s2), 80)` (R158). -/
def burstLen (count : Nat) : Fin 81 := ⟨min count 80, by omega⟩

/-- POLL's burst read of `n` bytes into RXBUF, and the re-arm (R155, R158). -/
def pollDrain (n : Fin 81) (s : State) : State :=
  let s1 := s.setDrv .draining
  let bs := s1.answerBytes n.val
  let s2 := s1.perform (.rburst s.cfg.fifoAddr (BitVec.ofNat 8 n.val))
  (((s2.storeRx bs).setRxLen n).rearm).respond .ok (BitVec.ofNat 32 n.val)

/-- POLL after a first count that was not zero: the settle delay, the second occupancy read, and what follows it
(R155, R157). -/
def pollSecond (s : State) : State :=
  let s1 := s.perform (.wait 10#8)
  let a2 := s1.nextAnswer
  let s2 := s1.perform (.rreg s.cfg.occAddr)
  if occOverflow s.cfg a2 then s2.rearm.respond .noData 0
  else if occCount s.cfg a2 = 0 then s2.respond .noData 0
  else pollDrain (burstLen (occCount s.cfg a2)) s2

/-- `POLL` (R155). The overflow test comes before the count, on either read (R156, R157, R285). -/
def execPoll (s : State) : Host.Outcome State Fault Refusal :=
  let s0 := s.setRxLen 0
  let a1 := s0.nextAnswer
  let s1 := s0.perform (.rreg s.cfg.occAddr)
  .next
    (if occOverflow s.cfg a1 then s1.rearm.respond .noData 0
     else if occCount s.cfg a1 = 0 then s1.respond .noData 0
     else pollSecond s1)

end Sys2Proof.Machine
end

