-- ==== Sys2Proof/Machine/Operands.lean ====
section
/-! DEFINITION. Operands: big-endian fields of a buffer (R10, R62), the fields of a weather frame (R171, R187 to
R195) and of a particulate frame (R211, R221, R222), and the host registers by number (R40, R42). -/

namespace Sys2Proof.Machine

open Sys2Proof

/-! ### Big-endian fields (R10, R62) -/

/-- `be16(b, o)`. -/
def be16 (b : Memory) (o : Nat) : BitVec 16 := Memory.read b o ++ Memory.read b (o + 1)

/-- `be24(b, o)`. -/
def be24 (b : Memory) (o : Nat) : BitVec 24 := Memory.read b o ++ Memory.read b (o + 1) ++ Memory.read b (o + 2)

/-- `be32(b, o)`. -/
def be32 (b : Memory) (o : Nat) : BitVec 32 :=
  Memory.read b o ++ Memory.read b (o + 1) ++ Memory.read b (o + 2) ++ Memory.read b (o + 3)

/-! ### The weather frame -/

/-- R187: the 12-bit raw value `{b5[3:0], b6}`, minus 400, as a signed 13-bit number. -/
def wxTempOf (b5 b6 : Byte) : BitVec 13 := (b5.extractLsb' 0 4 ++ b6 : BitVec 12).zeroExtend 13 - 400#13

/-- R189: directions above 360 become 0. -/
def wxDirOf (dir : BitVec 16) : BitVec 9 := if 360 < dir.toNat then 0#9 else dir.truncate 9

/-- R192: tenths of m/s to hundredths of km/h. -/
def wxSpeedOf (b : Byte) : BitVec 14 := b.zeroExtend 14 * 36#14

/-- R195: the illuminance field, when the buffer has 20 bytes or more. -/
def wxLuxOf (b : Memory) (n : Nat) : BitVec 32 := if 20 ≤ n then be32 b 16 else 0#32

/-- The weather reading of an accepted frame of `n` bytes (R180, R187 to R196). -/
def wxReadingOf (c : Cfg) (b : Memory) (n now : Nat) : WxReading :=
  { valid := true
    temp := wxTempOf (Memory.read b 5) (Memory.read b 6)
    hum := Memory.read b 7
    wdir := wxDirOf (be16 b 8)
    wspd := wxSpeedOf (Memory.read b 10)
    gust := wxSpeedOf (Memory.read b 11)
    rain := be24 b 12
    uv := Memory.read b 15
    lux := wxLuxOf b n
    battOk := battOkOf c (Memory.read b 4)
    time := now }

/-! ### The particulate frame -/

/-- The particulate reading of a valid frame (R221 to R223). -/
def pmReadingOf (c : Cfg) (f : Memory) (now : Nat) : PmReading :=
  { valid := true
    mass := #v[be16 f c.pmMassOff[0], be16 f c.pmMassOff[1], be16 f c.pmMassOff[2]]
    cnt := #v[be16 f c.pmCntOff[0], be16 f c.pmCntOff[1], be16 f c.pmCntOff[2], be16 f c.pmCntOff[3],
      be16 f c.pmCntOff[4], be16 f c.pmCntOff[5]]
    time := now }

/-! ### The host registers -/

/-- The number of a register (R40). -/
def regNum : HostReg → Byte
  | .status => 0x00#8
  | .rxlen => 0x01#8
  | .wxLast => 0x02#8
  | .pmLast => 0x03#8
  | .cur => 0x04#8
  | .sum16 => 0x05#8
  | .crc8 => 0x06#8
  | .wxTemp => 0x10#8
  | .wxHum => 0x11#8
  | .wxWdir => 0x12#8
  | .wxWspd => 0x13#8
  | .wxGust => 0x14#8
  | .wxRain => 0x15#8
  | .wxUv => 0x16#8
  | .wxLux => 0x17#8
  | .wxBattOk => 0x18#8
  | .wxTime => 0x19#8
  | .pmMass0 => 0x20#8
  | .pmMass1 => 0x21#8
  | .pmMass2 => 0x22#8
  | .pmCnt0 => 0x23#8
  | .pmCnt1 => 0x24#8
  | .pmCnt2 => 0x25#8
  | .pmCnt3 => 0x26#8
  | .pmCnt4 => 0x27#8
  | .pmCnt5 => 0x28#8
  | .pmTime => 0x29#8

/-- The implemented registers (R40). -/
def allRegs : List HostReg :=
  [.status, .rxlen, .wxLast, .pmLast, .cur, .sum16, .crc8] ++
  [.wxTemp, .wxHum, .wxWdir, .wxWspd, .wxGust, .wxRain, .wxUv, .wxLux, .wxBattOk, .wxTime] ++
  [.pmMass0, .pmMass1, .pmMass2, .pmCnt0, .pmCnt1, .pmCnt2, .pmCnt3, .pmCnt4, .pmCnt5, .pmTime]

/-- The register a number selects, if it is implemented (R42). -/
def regOf (r : Byte) : Option HostReg := allRegs.find? fun g => regNum g == r

/-- The value RD returns: zero-extended, but `WX_TEMP` sign-extended and time stamps wider than 32 bits cut to their
low 32 (R40). -/
def regValue (s : State) : HostReg → Word32
  | .status => statusWord s
  | .rxlen => BitVec.ofNat 32 s.u1.rxlen.val
  | .wxLast => s.u2.wxLast.zeroExtend 32
  | .pmLast => s.u3.pmLast.zeroExtend 32
  | .cur => BitVec.ofNat 32 s.u3.cur.val
  | .sum16 => s.sum16.zeroExtend 32
  | .crc8 => s.u2.crc8.zeroExtend 32
  | .wxTemp => s.u2.reading.temp.signExtend 32
  | .wxHum => s.u2.reading.hum.zeroExtend 32
  | .wxWdir => s.u2.reading.wdir.zeroExtend 32
  | .wxWspd => s.u2.reading.wspd.zeroExtend 32
  | .wxGust => s.u2.reading.gust.zeroExtend 32
  | .wxRain => s.u2.reading.rain.zeroExtend 32
  | .wxUv => s.u2.reading.uv.zeroExtend 32
  | .wxLux => s.u2.reading.lux
  | .wxBattOk => (BitVec.ofBool s.u2.reading.battOk).zeroExtend 32
  | .wxTime => BitVec.ofNat 32 s.u2.reading.time
  | .pmMass0 => s.u3.reading.mass[0].zeroExtend 32
  | .pmMass1 => s.u3.reading.mass[1].zeroExtend 32
  | .pmMass2 => s.u3.reading.mass[2].zeroExtend 32
  | .pmCnt0 => s.u3.reading.cnt[0].zeroExtend 32
  | .pmCnt1 => s.u3.reading.cnt[1].zeroExtend 32
  | .pmCnt2 => s.u3.reading.cnt[2].zeroExtend 32
  | .pmCnt3 => s.u3.reading.cnt[3].zeroExtend 32
  | .pmCnt4 => s.u3.reading.cnt[4].zeroExtend 32
  | .pmCnt5 => s.u3.reading.cnt[5].zeroExtend 32
  | .pmTime => BitVec.ofNat 32 s.u3.reading.time

end Sys2Proof.Machine
end

