-- ==== Sys2Proof/Machine/HostAccess.lean ====
section
/-! DEFINITION. The host access commands RD, RDBUF, LDBUF and CLRBUF (R250 to R256). -/

namespace Sys2Proof.Machine

open Sys2Proof

/-- `RD r` (R250, R42). -/
def execRd (r : Byte) (s : State) : Host.Outcome State Fault Refusal :=
  .next
    (match regOf r with
     | some g => s.respond .ok (regValue s g)
     | none => s.respond .eRange 0)

/-- `RDBUF i` (R252). -/
def execRdbuf (i : Byte) (s : State) : Host.Outcome State Fault Refusal :=
  .next
    (if i.toNat < s.u1.rxlen.val then s.respond .ok ((Memory.read s.u1.rxbuf i.toNat).zeroExtend 32)
     else s.respond .eRange 0)

/-- `LDBUF d` (R254): a full buffer refuses the byte and answers 80. -/
def execLdbuf (d : Byte) (s : State) : Host.Outcome State Fault Refusal :=
  .next
    (if h : s.u1.rxlen.val < 80 then
       ({ s with
          u1 :=
            { s.u1 with
              rxbuf := Memory.write s.u1.rxbuf s.u1.rxlen.val d
              rxlen := ⟨s.u1.rxlen.val + 1, by omega⟩ } } : State).respond .ok
         (BitVec.ofNat 32 (s.u1.rxlen.val + 1))
     else s.respond .eRange 80#32)

/-- `CLRBUF` (R256). -/
def execClrbuf (s : State) : Host.Outcome State Fault Refusal := .next ((s.setRxLen 0).respond .ok 0)

end Sys2Proof.Machine
end

