-- ==== Sys2Proof/Machine/UartSync.lean ====
section
/-! DEFINITION. Unit U3's host command PUSH (R212 to R223). -/

namespace Sys2Proof.Machine

open Sys2Proof

/-- `FBUF[c] <- d`. -/
def State.storeFrame (c : Nat) (d : Byte) (s : State) : State :=
  { s with u3 := { s.u3 with fbuf := Memory.write s.u3.fbuf c d } }

/-- `S.SYNC_STATE <- q; S.CUR <- c`. -/
def State.setSync (q : SyncState) (c : Fin 32) (s : State) : State :=
  { s with u3 := { s.u3 with syncState := q, cur := c } }

/-- Reset to empty (R33): `CUR` and `SYNC_STATE` to the start, and `SUM_CLR`. -/
def State.emptyFrame (s : State) : State := (s.setSync .first 0).driveSum true false 0

/-- A complete frame, byte 31 just stored: the compare, the latches of a valid frame, the outcome, and the reset to
empty (R212, R218, R220 to R223). -/
def frameComplete (s : State) : State :=
  if s.sum16 = be16 s.u3.fbuf 30 then
    (({ s with
        u3 :=
          { s.u3 with
            pmLast := Code.byte .ok
            reading := pmReadingOf s.cfg s.u3.fbuf s.sampleNow } } : State).emptyFrame).respond .ok 0
  else
    (({ s with u3 := { s.u3 with pmLast := Code.byte .ePmChecksum } } : State).emptyFrame).respond .ePmChecksum 0

/-- A byte in `S_ACC` (R217, R218): stored; added to the sum below index 30; the 32nd byte completes the frame. -/
def pushAcc (d : Byte) (s : State) : State :=
  let c := s.u3.cur
  let s1 := s.storeFrame c.val d
  if h : c.val < 31 then
    let s2 := if c.val < 30 then s1.driveSum false true d else s1.driveSum false false 0
    (s2.setSync .acc ⟨c.val + 1, by omega⟩).respond .noData 0
  else frameComplete s1

/-- `PUSH d` (R212). -/
def execPush (d : Byte) (s : State) : Host.Outcome State Fault Refusal :=
  .next
    (match s.u3.syncState with
     | .first =>
       if d = 0x42#8 then
         (((s.storeFrame 0 d).driveSum true true d).setSync .second 1).respond .noData 0
       else s.respond .noData 0
     | .second =>
       if d = 0x4D#8 then
         (((s.storeFrame 1 d).driveSum false true d).setSync .acc 2).respond .noData 0
       else s.emptyFrame.respond .noData 0
     | .acc => pushAcc d s)

end Sys2Proof.Machine
end

