-- ==== Sys2Proof/Machine/WeatherFrame.lean ====
section
/-! DEFINITION. Unit U2: the CRC engine's micro-operations (R174 to R177) and DECODE (R180 to R197). -/

namespace Sys2Proof.Machine

open Sys2Proof

/-- `CRC_HOLD` (R174). -/
def execCrcHold (s : State) : Host.Outcome State Fault Refusal := .next (s.driveCrc false false 0)

/-- `CRC_BYTE d` (R175). -/
def execCrcByte (d : Byte) (s : State) : Host.Outcome State Fault Refusal := .next (s.driveCrc false true d)

/-- `CRC_CLR` (R176). -/
def execCrcClr (s : State) : Host.Outcome State Fault Refusal := .next (s.driveCrc true false 0)

/-- `CRC_LOAD d` (R177). -/
def execCrcLoad (d : Byte) (s : State) : Host.Outcome State Fault Refusal := .next (s.driveCrc true true d)

/-- The end of a rejected DECODE: the outcome is recorded, the buffer is consumed (R181, R182, R197, R288). -/
def decodeReject (c : Code) (s : State) : State :=
  (({ s with u2 := { s.u2 with wxLast := c.byte } } : State).setRxLen 0).respond c 0

/-- The end of an accepted DECODE of `n` bytes: every weather latch, the warning, the outcome, and the buffer
consumed (R180, R183, R197). -/
def decodeAccept (n : Nat) (s : State) : State :=
  let w := familyWarnOf s.cfg (Memory.read s.u1.rxbuf 0)
  let s1 : State :=
    { s with
      u2 :=
        { s.u2 with
          wxLast := Code.byte .ok
          familyWarn := w
          reading := wxReadingOf s.cfg s.u1.rxbuf n s.sampleNow } }
  (s1.setRxLen 0).respond .ok ((BitVec.ofBool w).zeroExtend 32)

/-- `DECODE` (R180). -/
def execDecode (s : State) : Host.Outcome State Fault Refusal :=
  let n := s.u1.rxlen.val
  .next
    (if n < 17 then decodeReject .eTooShort s
     else
       let s1 := (s.driveCrc true false 0).crcBytes (s.rxBytes (n - 1))
       if s1.u2.crc8 = Memory.read s.u1.rxbuf (n - 1) then decodeAccept n s1 else decodeReject .eWxChecksum s1)

end Sys2Proof.Machine
end

