-- ==== Sys2Proof/Machine/Dispatch.lean ====
section
/-! DEFINITION. One arm per instruction, each a call of its meaning. -/

namespace Sys2Proof.Machine

open Sys2Proof

def exec (i : Instr) (s : State) : Host.Outcome State Fault Refusal :=
  match i with
  -- host commands (R92)
  | .init b => Sys2Proof.Machine.execInit b s
  | .poll => Sys2Proof.Machine.execPoll s
  | .decode => Sys2Proof.Machine.execDecode s
  | .push d => Sys2Proof.Machine.execPush d s
  | .rd r => Sys2Proof.Machine.execRd r s
  | .rdbuf i' => Sys2Proof.Machine.execRdbuf i' s
  | .ldbuf d => Sys2Proof.Machine.execLdbuf d s
  | .clrbuf => Sys2Proof.Machine.execClrbuf s
  -- bus events (R99)
  | .wreg a v => Sys2Proof.Machine.execWreg a v s
  | .rreg a => Sys2Proof.Machine.execRreg a s
  | .rburst a n => Sys2Proof.Machine.execRburst a n s
  | .strobe c => Sys2Proof.Machine.execStrobe c s
  | .wait ms => Sys2Proof.Machine.execWait ms s
  -- micro-operations of U4 (R101)
  | .sumHold => Sys2Proof.Machine.execSumHold s
  | .sumAdd d => Sys2Proof.Machine.execSumAdd d s
  | .sumClr => Sys2Proof.Machine.execSumClr s
  | .sumLoad d => Sys2Proof.Machine.execSumLoad d s
  -- micro-operations of the CRC engine (R101)
  | .crcHold => Sys2Proof.Machine.execCrcHold s
  | .crcByte d => Sys2Proof.Machine.execCrcByte d s
  | .crcClr => Sys2Proof.Machine.execCrcClr s
  | .crcLoad d => Sys2Proof.Machine.execCrcLoad d s

end Sys2Proof.Machine
end

