-- ==== Sys2Proof/Machine/Step.lean ====
section
/-! DEFINITION. One step: the oldest pending request is taken and its word executed to completion (R3, R20, R80).
TRD has no program counter and fetches nothing (R26, R82): the words come to its ports from outside, in order. -/

namespace Sys2Proof.Machine

open Sys2Proof

/-- With nothing pending TRD waits: no state changes. A word that is no instruction is answered or refused by
`rejectWord`. -/
def step (s : State) : Host.Outcome State Fault Refusal :=
  match s.inp.requests with
  | [] => .next s
  | r :: rest =>
    match decode r.word with
    | .instr i => exec i (s.accept r rest)
    | .rejected e => rejectWord e (s.accept r rest)

/-- `s` with the table word of `nbits` bits pending before everything else, so that the next step executes it. -/
def State.withFetchWord (s : State) (nbits w : Nat) : State := s.pushRequest (requestOf nbits w)

end Sys2Proof.Machine
end

