-- ==== Sys2Proof/Machine/ChipSim.lean ====
section
/-! DEFINITION. The informative reference environment `ChipSim` of R74, a deterministic chip to script answers with.
It is no part of `State` and nothing of the machine reads it (R70, R74): it says of an event list, once a command has
made one, whether this chip could have given its answers. -/

namespace Sys2Proof.Machine

open Sys2Proof

/-- The state of `ChipSim`: `regs` (0x00 where never written), `fifo`, `ovf`, `listening`. -/
structure Chip where
  regs : Memory
  fifo : List Byte
  ovf : Bool
  listening : Bool
  deriving DecidableEq, Repr

/-- The chip at first: the probe register holds `PROBE_EXPECT`. DESIGN CHOICE (log entry 12): R74 gives `fifo` no
initial content, and it starts empty. -/
def chipStart (c : Cfg) : Chip :=
  { regs := Memory.write [] c.probeAddr.toNat c.probeExpect, fifo := [], ovf := false, listening := false }

/-- The largest count the occupancy byte can show. -/
def occMaxCount (c : Cfg) : Nat := occCount c 0xFF#8

/-- The occupancy byte: the overflow bits when `ovf`, the count bits holding the count, at most the largest. -/
def chipOccByte (c : Cfg) (k : Chip) : Byte :=
  (if k.ovf then c.occOvfMask else 0x00#8) ||| (BitVec.ofNat 8 (min k.fifo.length (occMaxCount c)) <<< occShift c)

/-- The bytes the chip answers an event with. DESIGN CHOICE (log entry 12): R74 describes bursts of `FIFO_ADDR` only,
and POLL emits no other; a burst of another address is taken to answer zeros. -/
def chipAnswer (c : Cfg) (k : Chip) : BusEvent → List Byte
  | .wreg _ _ => []
  | .rreg a => [if a = c.occAddr then chipOccByte c k else Memory.read k.regs a.toNat]
  | .rburst a n =>
    if a = c.fifoAddr then k.fifo.take n.toNat ++ List.replicate (n.toNat - k.fifo.length) 0x00#8
    else List.replicate n.toNat 0x00#8
  | .strobe _ => []
  | .wait _ => []

/-- The chip after an event. DESIGN CHOICE (log entry 12): R74 says nothing of a burst of another address, of a strobe
with another code, of WAIT, or of one code for both strobes; the first three leave the chip as it was, and one code for
both flushes. -/
def chipAfter (c : Cfg) (k : Chip) : BusEvent → Chip
  | .wreg a v => { k with regs := Memory.write k.regs a.toNat v }
  | .rreg _ => k
  | .rburst a n => if a = c.fifoAddr then { k with fifo := k.fifo.drop n.toNat } else k
  | .strobe code =>
    if code = c.strobeFlushRx then { k with fifo := [], ovf := false, listening := false }
    else if code = c.strobeEnterRx then { k with listening := true }
    else k
  | .wait _ => k

/-- The environment move "radio byte `b` arrives", with room for `cap` bytes (`CHIP_FIFO_CAP`, OPEN). DESIGN CHOICE (log
entry 12): R74 has `cap` at least 1; here it may be 0 too, and then the first byte overflows. -/
def chipRadio (cap : Nat) (b : Byte) (k : Chip) : Chip :=
  if k.listening && !k.ovf then
    if k.fifo.length < cap then { k with fifo := k.fifo ++ [b] } else { k with ovf := true }
  else k

/-- Radio bytes arrive, in order. -/
def chipRadioAll (cap : Nat) : List Byte → Chip → Chip
  | [], k => k
  | b :: bs, k => chipRadioAll cap bs (chipRadio cap b k)

/-- Play an event list against the chip, with the radio bytes that arrive before each event: the chip at the end, if
every recorded answer is the chip's. -/
def chipReplay (c : Cfg) (cap : Nat) : List (List Byte × BusRecord) → Chip → Option Chip
  | [], k => some k
  | (air, e) :: es, k =>
    let k1 := chipRadioAll cap air k
    if e.answer = chipAnswer c k1 e.event then chipReplay c cap es (chipAfter c k1 e.event) else none

end Sys2Proof.Machine
end

