-- ==== Sys2Proof/Machine/Pseudo.lean ====
section
/-! DEFINITION. Host programs: sequences of commands, and the pseudo-instructions PUSHN, LOADFRAME and CYCLE of R111
and R112, which expand to commands and have no encoding. (REARM, the fourth, is `State.rearm`.)

DESIGN CHOICE (log entry 22): R111 and R112 do not say what inputs the commands of an expansion get; here they all run
on the inputs and outputs of the state they start from, with one `now`, one continuing answer stream and one growing
event list. A program with inputs of its own for each command is a list of requests, which `step` runs. -/

namespace Sys2Proof.Machine

open Sys2Proof

/-- Execute instructions in order, to the first stop, all on one set of inputs (log entry 22). -/
def runInstrs : List Instr → State → Host.Outcome State Fault Refusal
  | [], s => .next s
  | i :: is, s =>
    match exec i s with
    | .next t => runInstrs is t
    | .fault r => .fault r
    | .refused r => .refused r

/-- The responses of a sequence that are not `NO_DATA`, in order (R111). -/
def runRsps : List Instr → State → List Rsp
  | [], _ => []
  | i :: is, s =>
    match exec i s with
    | .next t => t.out.rsp.toList.filter (fun r => r.code != .noData) ++ runRsps is t
    | .fault _ => []
    | .refused _ => []

/-- `PUSHN d0, ..., dk` (R111). DESIGN CHOICE (log entry 23): the list may be empty, and is then no command. -/
def pushN (ds : List Byte) : List Instr := ds.map .push

/-- `LOADFRAME d0, ..., dk` (R111). DESIGN CHOICE (log entry 23): R111 has 1 to 80 bytes (`k+1 <= 80`); here the list may
have any length, none is `CLRBUF` alone, and the LDBUF of each byte after the 80th answers `E_RANGE` (R254). -/
def loadFrame (ds : List Byte) : List Instr := .clrbuf :: ds.map .ldbuf

/-- The commands of a polling cycle after its POLL left the state `t`: DECODE if the POLL answered `OK`, then the
bytes that arrived (R112). -/
def cycleRest (us : List Byte) (t : State) : List Instr :=
  (if t.out.rsp.map (·.code) = some .ok then [.decode] else []) ++ pushN us

/-- `CYCLE u0, ..., uk` (R112). -/
def cycle (us : List Byte) (s : State) : Host.Outcome State Fault Refusal :=
  match exec .poll s with
  | .next t => runInstrs (cycleRest us t) t
  | .fault r => .fault r
  | .refused r => .refused r

end Sys2Proof.Machine
end

