-- ==== Sys2Proof/Safety.lean ====
section
/-! DEFINITION. What claims are stated in: the state a step or an instruction goes on in, the invariants the spec
states (R24, R25, R28, R29, R32 to R35), and what only the host port can break. -/

namespace Sys2Proof.Machine

open Sys2Proof

/-- The next state, if the outcome is one. -/
def nextState (o : Host.Outcome State Fault Refusal) : Option State :=
  match o with
  | .next t => some t
  | .fault _ => none
  | .refused _ => none

/-- Only the host issues words (R92): B-format and K-format words are internal (R100, R105). -/
def hostOnly (s : State) : Prop := ∀ r ∈ s.inp.requests, ∃ w, r.word = .host w

/-- The sum of the low `n` bytes of a buffer, modulo 65536 (R35, R220). -/
def byteSum (m : Memory) (n : Nat) : BitVec 16 := BitVec.ofNat 16 (((List.range n).map fun k => (Memory.read m k).toNat).sum)

/-- The invariants that hold whatever port is used: the buffers keep their canonical form and their size (R25, R33,
R60), between commands `DRV_STATE` is `IDLE` or `ARMED` (R24), the last-outcome registers hold an outcome of their
unit or 0xFF (R28, R34), the weather latches lie in the ranges of R29, and time stamps fit in `TIME_W` bits. -/
structure BaseInv (s : State) : Prop where
  rxbufWf : Memory.wf 80 s.u1.rxbuf = true
  fbufWf : Memory.wf 32 s.u3.fbuf = true
  drvBetween : s.u1.drvState = .idle ∨ s.u1.drvState = .armed
  wxLastCode : s.u2.wxLast ∈ [0x00#8, 0x20#8, 0x21#8, 0xFF#8]
  pmLastCode : s.u3.pmLast ∈ [0x00#8, 0x30#8, 0xFF#8]
  tempRange : -400 ≤ s.u2.reading.temp.toInt ∧ s.u2.reading.temp.toInt ≤ 3695
  wdirRange : s.u2.reading.wdir.toNat ≤ 360
  wspdRange : s.u2.reading.wspd.toNat ≤ 9180 ∧ s.u2.reading.wspd.toNat % 36 = 0
  gustRange : s.u2.reading.gust.toNat ≤ 9180 ∧ s.u2.reading.gust.toNat % 36 = 0
  wxTimeWidth : s.u2.reading.time < 2 ^ s.cfg.timeW
  pmTimeWidth : s.u3.reading.time < 2 ^ s.cfg.timeW

/-- The invariants of U3 and U4 (R32, R33, R35): `SYNC_STATE` is the function of `CUR` that R32 gives, the stored
header bytes are the header, and `SUM16` is the sum of the stored bytes below index 30. -/
structure FrameInv (s : State) : Prop where
  firstIff : s.u3.syncState = .first ↔ s.u3.cur.val = 0
  secondIff : s.u3.syncState = .second ↔ s.u3.cur.val = 1
  accIff : s.u3.syncState = .acc ↔ 2 ≤ s.u3.cur.val
  header0 : 1 ≤ s.u3.cur.val → Memory.read s.u3.fbuf 0 = 0x42#8
  header1 : 2 ≤ s.u3.cur.val → Memory.read s.u3.fbuf 1 = 0x4D#8
  sumOfStored : s.sum16 = byteSum s.u3.fbuf (min s.u3.cur.val 30)

/-- Latches and flags that go together: a latch group whose valid flag is 0 still holds its reset values (R30, R37,
R56), and a chip that was found is one the driver told to listen (R24, R140, R145). -/
structure LatchInv (s : State) : Prop where
  wxUnset : s.u2.reading.valid = false → s.u2.reading = WxReading.reset ∧ s.u2.familyWarn = false
  pmUnset : s.u3.reading.valid = false → s.u3.reading = PmReading.reset
  wxLastOk : s.u2.wxLast = 0x00#8 → s.u2.reading.valid = true
  pmLastOk : s.u3.pmLast = 0x00#8 → s.u3.reading.valid = true
  chipArmed : s.u1.chipOk = true → s.u1.drvState = .armed

/-- The invariant of a machine that only its host drives. -/
structure Inv (s : State) : Prop where
  host : hostOnly s
  base : BaseInv s
  frame : FrameInv s
  latch : LatchInv s

end Sys2Proof.Machine
end

