-- ==== Sys2Proof/Certificates/Slice0/Obligations.lean ====
section
/-! DEFINITION. The statements for the provers. Each names in its docstring the rules it states; a clause that is the
model's choice says so and names its log entry. `exec` says what an instruction does to a state whose inputs (`inp`)
are in place; `step` says it of a pending request. -/

open Sys2Proof Sys2Proof.Machine

/-! ### Encodings -/

/-- Decoding an encoded instruction gives it back, every operand at every value (R91 to R93, R98 to R101). -/
def Obligations.DecodeEncodeRoundTrip : Prop :=
  ∀ i : Instr, decode (encode i) = .instr i

/-- Every word that decodes is the encoding of its instruction, up to the bits R100 calls ignored: the low eight of a
K-format word with `en` = 0. -/
def Obligations.DecodedWordsEncodeBack : Prop :=
  ∀ (p : PortWord) (i : Instr), decode p = .instr i →
    encode i =
      match p with
      | .host w => .host w
      | .bus w => .bus w
      | .sum w => .sum (if w.getLsbD 8 then w else w &&& 0x300#10)
      | .crc w => .crc (if w.getLsbD 8 then w else w &&& 0x300#10)

/-- R92: a word `w` is the command when `(w & mask) = match`, row by row, with the operands R93 names; and no word
matches two rows. -/
def Obligations.HostDecodeFollowsTable : Prop :=
  (∀ w : BitVec 16,
    (w &&& 0xFFFE#16 = 0x1000#16 → decode (.host w) = .instr (.init (w.extractLsb' 0 1))) ∧
    (w &&& 0xFFFF#16 = 0x2000#16 → decode (.host w) = .instr .poll) ∧
    (w &&& 0xFFFF#16 = 0x3000#16 → decode (.host w) = .instr .decode) ∧
    (w &&& 0xFF00#16 = 0x4000#16 → decode (.host w) = .instr (.push (w.extractLsb' 0 8))) ∧
    (w &&& 0xFF00#16 = 0x5000#16 → decode (.host w) = .instr (.rd (w.extractLsb' 0 8))) ∧
    (w &&& 0xFF00#16 = 0x6000#16 → decode (.host w) = .instr (.rdbuf (w.extractLsb' 0 8))) ∧
    (w &&& 0xFF00#16 = 0x7000#16 → decode (.host w) = .instr (.ldbuf (w.extractLsb' 0 8))) ∧
    (w &&& 0xFFFF#16 = 0x8000#16 → decode (.host w) = .instr .clrbuf)) ∧
  ∀ (w : BitVec 16) (r r' : Row 16), r ∈ hostRows → r' ∈ hostRows → r.matches w = true → r'.matches w = true → r = r'

/-- R99: the five rows of the B-format. -/
def Obligations.BusDecodeFollowsTable : Prop :=
  ∀ w : BitVec 20,
    (w &&& 0xF0000#20 = 0x10000#20 →
      decode (.bus w) = .instr (.wreg (w.extractLsb' 8 8) (w.extractLsb' 0 8))) ∧
    (w &&& 0xF00FF#20 = 0x20000#20 → decode (.bus w) = .instr (.rreg (w.extractLsb' 8 8))) ∧
    (w &&& 0xF0000#20 = 0x30000#20 →
      decode (.bus w) = .instr (.rburst (w.extractLsb' 8 8) (w.extractLsb' 0 8))) ∧
    (w &&& 0xF00FF#20 = 0x40000#20 → decode (.bus w) = .instr (.strobe (w.extractLsb' 8 8))) ∧
    (w &&& 0xFFF00#20 = 0x80000#20 → decode (.bus w) = .instr (.wait (w.extractLsb' 0 8)))

/-- R101: the four rows of the KS-format and the four of the KC-format; every 10-bit word matches one of them. -/
def Obligations.MicroDecodeFollowsTable : Prop :=
  ∀ w : BitVec 10,
    (w &&& 0x300#10 = 0x000#10 → decode (.sum w) = .instr .sumHold ∧ decode (.crc w) = .instr .crcHold) ∧
    (w &&& 0x300#10 = 0x100#10 →
      decode (.sum w) = .instr (.sumAdd (w.extractLsb' 0 8)) ∧
      decode (.crc w) = .instr (.crcByte (w.extractLsb' 0 8))) ∧
    (w &&& 0x300#10 = 0x200#10 → decode (.sum w) = .instr .sumClr ∧ decode (.crc w) = .instr .crcClr) ∧
    (w &&& 0x300#10 = 0x300#10 →
      decode (.sum w) = .instr (.sumLoad (w.extractLsb' 0 8)) ∧
      decode (.crc w) = .instr (.crcLoad (w.extractLsb' 0 8))) ∧
    ∃ r ∈ kRows, r.matches w = true

/-- R104, its list of reserved words in full: such a word is rejected, the others are not; it changes no state, emits
no bus event and is answered `{0x7F, 0}`; the requests after it stay pending. 0x0000 and 0xFFFF are among them. -/
def Obligations.ReservedCommandsAnswered : Prop :=
  let reserved : BitVec 16 → Prop := fun w =>
    let op := w.toNat / 4096
    let z := w.toNat / 256 % 16
    let imm := w.toNat % 256
    op = 0 ∨ 9 ≤ op ∨ z ≠ 0 ∨ (op = 1 ∧ imm / 2 ≠ 0) ∨ ((op = 2 ∨ op = 3 ∨ op = 8) ∧ imm ≠ 0)
  reserved 0x0000#16 ∧ reserved 0xFFFF#16 ∧
  (∀ w, reserved w ↔ ∀ row ∈ hostRows, row.matches w = false) ∧
  (∀ w, reserved w ↔ decode (.host w) = .rejected .reservedCommand) ∧
  ∀ (s : State) (r : Request) (rest : List Request) (w : BitVec 16),
    s.inp.requests = r :: rest → r.word = .host w → reserved w →
    ∃ t, step s = .next t ∧ t.cfg = s.cfg ∧ t.u1 = s.u1 ∧ t.u2 = s.u2 ∧ t.u3 = s.u3 ∧ t.sum16 = s.sum16 ∧
      t.out.trace = [] ∧ t.out.rsp = some ⟨.eIllegalCmd, 0⟩ ∧ (Rsp.mk .eIllegalCmd 0).word = 0x7F00000000#40 ∧
      t.inp.requests = rest

/-- Words written out from the tables of R92, R99 and R101 and the examples of R121 to R125 decode to the
instructions they stand for. -/
def Obligations.WrittenOutWordsDecode : Prop :=
  decode (.host 0x1001#16) = .instr (.init 1#1) ∧ decode (.host 0x2000#16) = .instr .poll ∧
  decode (.host 0x3000#16) = .instr .decode ∧ decode (.host 0x404D#16) = .instr (.push 0x4D#8) ∧
  decode (.host 0x5010#16) = .instr (.rd 0x10#8) ∧ decode (.host 0x604F#16) = .instr (.rdbuf 0x4F#8) ∧
  decode (.host 0x7024#16) = .instr (.ldbuf 0x24#8) ∧ decode (.host 0x8000#16) = .instr .clrbuf ∧
  decode (.bus 0x10455#20) = .instr (.wreg 0x04#8 0x55#8) ∧ decode (.bus 0x22000#20) = .instr (.rreg 0x20#8) ∧
  decode (.bus 0x32115#20) = .instr (.rburst 0x21#8 21#8) ∧ decode (.bus 0x43000#20) = .instr (.strobe 0x30#8) ∧
  decode (.bus 0x8000A#20) = .instr (.wait 10#8) ∧ decode (.sum 0x14D#10) = .instr (.sumAdd 0x4D#8) ∧
  decode (.crc 0x301#10) = .instr (.crcLoad 0x01#8)

/-- The B-format word of every event, as R98 and R99 lay it out, is the word of the instruction that performs it. -/
def Obligations.BusWordLayout : Prop :=
  (∀ a v : Byte, (BusEvent.wreg a v).word.toNat = 0x1 * 65536 + a.toNat * 256 + v.toNat) ∧
  (∀ a : Byte, (BusEvent.rreg a).word.toNat = 0x2 * 65536 + a.toNat * 256) ∧
  (∀ a n : Byte, (BusEvent.rburst a n).word.toNat = 0x3 * 65536 + a.toNat * 256 + n.toNat) ∧
  (∀ c : Byte, (BusEvent.strobe c).word.toNat = 0x4 * 65536 + c.toNat * 256) ∧
  (∀ ms : Byte, (BusEvent.wait ms).word.toNat = 0x8 * 65536 + ms.toNat) ∧
  ∀ e : BusEvent, encode e.instr = .bus e.word

/-! ### The step, responses, reset -/

/-- A step takes the oldest pending request and runs the instruction its word decodes to, on the state in which that
request's `now` and answers are in place, the outputs are cleared and nothing else has changed (R11, R80). A `now`
that was not written out is a free value (log entry 4). -/
def Obligations.StepRunsDecodedInstruction : Prop :=
  ∀ (s : State) (r : Request) (rest : List Request) (i : Instr),
    s.inp.requests = r :: rest → decode r.word = .instr i →
    step s =
      exec i
        { s with
          inp :=
            { requests := rest
              now := r.now.getD (Config.freeNow s.inp.cmdNo)
              answers := r.answers
              ansPos := 0
              cmdNo := s.inp.cmdNo + 1 }
          out := { rsp := none, trace := [] } }

/-- The model's choice (log entry 3): with nothing pending a step changes nothing. -/
def Obligations.IdleStepChangesNothing : Prop :=
  ∀ s : State, s.inp.requests = [] → step s = .next s

/-- R96: every host command returns exactly one response, its code and data as the table says; the code stands in bits
39:32 of the word, as its number of R270, and the data below; a reserved word is answered `E_ILLEGAL_CMD` with
data 0. -/
def Obligations.ResponsesPerCommand : Prop :=
  (∀ (i : Instr) (s : State), i.isHost = true →
    ∃ t rsp, exec i s = .next t ∧ t.out.rsp = some rsp ∧
      match i with
      | .init _ =>
        (rsp.code = .ok ∨ rsp.code = .eChipNotDetected) ∧ rsp.data = (s.answerAt s.inp.ansPos).setWidth 32
      | .poll =>
        (rsp.code = .ok ∧ rsp.data = BitVec.ofNat 32 t.u1.rxlen.val ∧ 1 ≤ t.u1.rxlen.val) ∨
          (rsp.code = .noData ∧ rsp.data = 0 ∧ t.u1.rxlen.val = 0)
      | .decode =>
        (rsp.code = .ok ∧ rsp.data = (BitVec.ofBool t.u2.familyWarn).setWidth 32) ∨
          ((rsp.code = .eTooShort ∨ rsp.code = .eWxChecksum) ∧ rsp.data = 0)
      | .push _ => (rsp.code = .noData ∨ rsp.code = .ok ∨ rsp.code = .ePmChecksum) ∧ rsp.data = 0
      | .rd r => (rsp.code = .ok ∧ ∃ g, regOf r = some g ∧ rsp.data = regValue s g) ∨
          (rsp.code = .eRange ∧ rsp.data = 0)
      | .rdbuf k =>
        (rsp.code = .ok ∧ rsp.data = (Memory.read s.u1.rxbuf k.toNat).setWidth 32) ∨
          (rsp.code = .eRange ∧ rsp.data = 0)
      | .ldbuf _ => (rsp.code = .ok ∨ rsp.code = .eRange) ∧ rsp.data = BitVec.ofNat 32 t.u1.rxlen.val
      | .clrbuf => rsp.code = .ok ∧ rsp.data = 0
      | _ => False) ∧
  (∀ rsp : Rsp, rsp.word.extractLsb' 32 8 = rsp.code.byte ∧ rsp.word.extractLsb' 0 32 = rsp.data) ∧
  ([Code.ok, .noData, .eChipNotDetected, .bufferOverflow, .eTooShort, .eWxChecksum, .ePmChecksum, .eRange,
      .eIllegalCmd].map Code.byte =
    [0x00#8, 0x01#8, 0x10#8, 0x11#8, 0x20#8, 0x21#8, 0x30#8, 0x40#8, 0x7F#8]) ∧
  ∀ (s : State) (r : Request) (rest : List Request) (w : BitVec 16),
    s.inp.requests = r :: rest → r.word = .host w → decode (.host w) = .rejected .reservedCommand →
    ∃ t, step s = .next t ∧ t.out.rsp = some ⟨.eIllegalCmd, 0⟩

/-- No host word stops the machine: whatever stands at the host port, in every state and with every answer, the step
has a next state, and the response is never the internal code 0x11 (R11, R280, R272). -/
def Obligations.HostWordsNeverStop : Prop :=
  ∀ (s : State) (r : Request) (rest : List Request) (w : BitVec 16),
    s.inp.requests = r :: rest → r.word = .host w →
    ∃ t rsp, step s = .next t ∧ t.out.rsp = some rsp ∧ rsp.code ≠ .bufferOverflow ∧ t.inp.requests = rest

/-- A B-format word of no row of R99 has no defined behaviour (R105): the model stops on it by name, and on an RBURST
whose length is 0 or above 80. -/
def Obligations.UndefinedBusWordsStop : Prop :=
  (∀ (s : State) (r : Request) (rest : List Request) (w : BitVec 20),
    s.inp.requests = r :: rest → r.word = .bus w → (∀ row ∈ busRows, row.matches w = false) →
    ∃ e, step s = .refused (.undefinedBusWord e)) ∧
  ∀ (a n : Byte) (s : State), n = 0#8 ∨ 80 < n.toNat → exec (.rburst a n) s = .refused .burstLength

/-- R55, every value it gives; R310: no event, no answer, no response, in fields that are the model's own (log entry
6). That the configuration at reset is well formed and has the defaults of R8 is the model's choice (log entries 1, 2). -/
def Obligations.ResetValues : Prop :=
  let s := State.reset
  s.u1.chipOk = false ∧ s.u1.band = 0 ∧ s.u1.drvState = .idle ∧ s.u1.rxlen.val = 0 ∧
  s.u2.crc8 = 0x00#8 ∧ s.u2.wxLast = 0xFF#8 ∧ s.u2.familyWarn = false ∧
  s.u2.reading = ⟨false, 0, 0, 0, 0, 0, 0, 0, 0, false, 0⟩ ∧
  s.u3.syncState = .first ∧ s.u3.cur.val = 0 ∧ s.sum16 = 0x0000#16 ∧ s.u3.pmLast = 0xFF#8 ∧
  s.u3.reading = ⟨false, #v[0, 0, 0], #v[0, 0, 0, 0, 0, 0], 0⟩ ∧
  s.out = ⟨none, []⟩ ∧ s.inp.ansPos = 0 ∧
  s.cfg.wf = true ∧ s.cfg.occOvfMask = 0x80#8 ∧ s.cfg.occCntMask = 0x7F#8 ∧ s.cfg.probeFirst = false ∧
  s.cfg.familyExpected = 0x24#8 ∧ s.cfg.pmMassOff = #v[10, 12, 14] ∧ s.cfg.pmCntOff = #v[16, 18, 20, 22, 24, 26] ∧
  s.cfg.timeW = 32

/-! ### Invariants and whole-machine rules -/

/-- The invariant of a host-driven machine holds at reset. -/
def Obligations.ResetMeetsInv : Prop := Inv State.reset

/-- Every step of a host-driven machine keeps its invariant: the state machines, the header and the running sum of
R24, R32, R33 and R35, the latch ranges of R29, the canonical buffers, and what goes with the valid flags. -/
def Obligations.StepKeepsInv : Prop := ∀ s t : State, Inv s → step s = .next t → Inv t

/-- Every step, whatever port its word stands at, keeps the buffers canonical, `DRV_STATE` idle or armed, and the
latches in their ranges (R24, R25, R28, R29, R34). -/
def Obligations.StepKeepsBaseInv : Prop := ∀ s t : State, BaseInv s → step s = .next t → BaseInv t

/-- R82: "no command, no bus answer and no PUSH byte can change them": the configuration never changes. -/
def Obligations.ConfigurationNeverChanges : Prop :=
  ∀ (s t : State), step s = .next t → t.cfg = s.cfg

/-- R22, R23: `CHIP_OK` and `BAND` are written by INIT only. -/
def Obligations.ChipStatusOnlyByInit : Prop :=
  ∀ s t : State, step s = .next t → t.u1.chipOk ≠ s.u1.chipOk ∨ t.u1.band ≠ s.u1.band →
    ∃ r rest b, s.inp.requests = r :: rest ∧ decode r.word = .instr (.init b) ∧ t.u1.band = b

/-- R140, R22, between commands. Reset leaves `IDLE`. INIT, whose one answer is the probe byte, ends `ARMED` with
`CHIP_OK` when that byte is `PROBE_EXPECT`, else `IDLE` without. POLL, whose first two answers are the occupancy bytes,
ends `ARMED` when either shows overflow or when neither count is zero, and leaves `DRV_STATE` on a zero count. Every
other instruction and a reserved command leave it. -/
def Obligations.DrvStateTransitions : Prop :=
  State.reset.u1.drvState = .idle ∧
  (∀ (i : Instr) (s t : State), exec i s = .next t →
    let a := s.answerAt s.inp.ansPos
    let b := s.answerAt (s.inp.ansPos + 1)
    match i with
    | .init _ =>
      (a = s.cfg.probeExpect → t.u1.chipOk = true ∧ t.u1.drvState = .armed) ∧
      (a ≠ s.cfg.probeExpect → t.u1.chipOk = false ∧ t.u1.drvState = .idle)
    | .poll =>
      t.u1.chipOk = s.u1.chipOk ∧
      (occOverflow s.cfg a = true → t.u1.drvState = .armed) ∧
      (occOverflow s.cfg a = false → occCount s.cfg a = 0 → t.u1.drvState = s.u1.drvState) ∧
      (occOverflow s.cfg a = false → occCount s.cfg a ≠ 0 →
        (occOverflow s.cfg b = true → t.u1.drvState = .armed) ∧
        (occOverflow s.cfg b = false → occCount s.cfg b = 0 → t.u1.drvState = s.u1.drvState) ∧
        (occOverflow s.cfg b = false → occCount s.cfg b ≠ 0 → t.u1.drvState = .armed))
    | _ => t.u1.drvState = s.u1.drvState) ∧
  ∀ (s t : State) (r : Request) (rest : List Request), s.inp.requests = r :: rest →
    decode r.word = .rejected .reservedCommand → step s = .next t → t.u1.drvState = s.u1.drvState

/-- R30: the weather latches and the warning change only in a DECODE that passed the length check and the CRC check, and
then all at once: they are the reading and the warning of that frame, stamped with that command's `now`. And `WX_VALID`
is never cleared. -/
def Obligations.WeatherLatchesOnlyByAcceptedDecode : Prop :=
  ∀ s t : State, step s = .next t →
    (t.u2.reading ≠ s.u2.reading ∨ t.u2.familyWarn ≠ s.u2.familyWarn →
      ∃ r rest, s.inp.requests = r :: rest ∧ r.word = .host 0x3000#16 ∧ 17 ≤ s.u1.rxlen.val ∧
        crc8 (s.rxBytes (s.u1.rxlen.val - 1)) = Memory.read s.u1.rxbuf (s.u1.rxlen.val - 1) ∧
        t.u2.reading =
          wxReadingOf s.cfg s.u1.rxbuf s.u1.rxlen.val (r.now.getD (Config.freeNow s.inp.cmdNo) % 2 ^ s.cfg.timeW) ∧
        t.u2.familyWarn = familyWarnOf s.cfg (Memory.read s.u1.rxbuf 0) ∧
        t.u2.reading.valid = true ∧ t.out.rsp.map (·.code) = some .ok) ∧
    (s.u2.reading.valid = true → t.u2.reading.valid = true)

/-- R37: the particulate latches change only in the PUSH that completes a frame whose sum matches, and then all at once:
they are the reading of that frame, its last byte stored, stamped with that command's `now`. And `PM_VALID` is never
cleared. -/
def Obligations.ParticulateLatchesOnlyByValidFrame : Prop :=
  ∀ s t : State, Memory.wf 32 s.u3.fbuf = true → step s = .next t →
    (t.u3.reading ≠ s.u3.reading →
      ∃ (r : Request) (rest : List Request) (d : Byte), s.inp.requests = r :: rest ∧
        r.word = .host (0x40#8 ++ d) ∧ s.u3.syncState = .acc ∧
        s.u3.cur.val = 31 ∧ s.sum16.toNat = (Memory.read s.u3.fbuf 30).toNat * 256 + d.toNat ∧
        t.u3.reading =
          pmReadingOf s.cfg (Memory.write s.u3.fbuf 31 d)
            (r.now.getD (Config.freeNow s.inp.cmdNo) % 2 ^ s.cfg.timeW) ∧
        t.u3.reading.valid = true ∧ t.out.rsp.map (·.code) = some .ok) ∧
    (s.u3.reading.valid = true → t.u3.reading.valid = true)

/-- R289, R288: an error outcome, and `NO_DATA`, leave every result latch and both valid flags as they were. -/
def Obligations.ErrorOutcomesKeepReadings : Prop :=
  ∀ (i : Instr) (s t : State) (rsp : Rsp), i.isHost = true → exec i s = .next t → t.out.rsp = some rsp →
    rsp.code ≠ .ok →
    t.u2.reading = s.u2.reading ∧ t.u2.familyWarn = s.u2.familyWarn ∧ t.u3.reading = s.u3.reading

/-- R210: the two sensors' paths are independent. PUSH changes nothing of U1 and U2 and takes no answer; the other
host commands change nothing of U3 and U4; and only INIT and POLL emit events or take answers. -/
def Obligations.PathsAreIndependent : Prop :=
  ∀ (i : Instr) (s t : State), i.isHost = true → exec i s = .next t →
    ((∃ d, i = .push d) → t.u1 = s.u1 ∧ t.u2 = s.u2) ∧
    ((∀ d, i ≠ .push d) → t.u3 = s.u3 ∧ t.sum16 = s.sum16) ∧
    ((∀ b, i ≠ .init b) ∧ i ≠ .poll → t.out.trace = s.out.trace ∧ t.inp = s.inp)

/-- R331: INIT emits `N_CFG + 3` events at most, POLL at most 6, the other commands none; R147 (f): INIT takes exactly
one answer byte. -/
def Obligations.EventCountsBounded : Prop :=
  ∀ (i : Instr) (s : State), i.isHost = true →
    ∃ t evs, exec i s = .next t ∧ t.out.trace = s.out.trace ++ evs ∧
      match i with
      | .init _ => evs.length ≤ s.cfg.table.length + 3 ∧ t.inp.ansPos = s.inp.ansPos + 1
      | .poll => evs.length ≤ 6
      | _ => evs = []

/-! ### Bus events -/

/-- R121, R122, R124, R125 with R120: the event goes to the end of the event list, a read with the one byte the
environment answers next, and nothing else changes. -/
def Obligations.BusEventsRecordOnly : Prop :=
  ∀ (s : State) (a v c ms : Byte),
    exec (.wreg a v) s =
      .next { s with out := { s.out with trace := s.out.trace ++ [⟨.wreg a v, []⟩] } } ∧
    exec (.rreg a) s =
      .next { s with
        inp := { s.inp with ansPos := s.inp.ansPos + 1 }
        out := { s.out with trace := s.out.trace ++ [⟨.rreg a, [s.answerAt s.inp.ansPos]⟩] } } ∧
    exec (.strobe c) s =
      .next { s with out := { s.out with trace := s.out.trace ++ [⟨.strobe c, []⟩] } } ∧
    exec (.wait ms) s =
      .next { s with out := { s.out with trace := s.out.trace ++ [⟨.wait ms, []⟩] } }

/-- R123: a burst of 1 to 80 bytes takes exactly that many answer bytes, in order, and changes nothing else. -/
def Obligations.BurstReadsItsLength : Prop :=
  ∀ (s : State) (a n : Byte), 1 ≤ n.toNat → n.toNat ≤ 80 →
    ∃ bs : List Byte, bs.length = n.toNat ∧ (∀ k < n.toNat, bs[k]? = some (s.answerAt (s.inp.ansPos + k))) ∧
      exec (.rburst a n) s =
        .next { s with
          inp := { s.inp with ansPos := s.inp.ansPos + n.toNat }
          out := { s.out with trace := s.out.trace ++ [⟨.rburst a n, bs⟩] } }

/-- The occupancy byte, R8: `ovf` tests the overflow mask; `cnt` is the count field shifted down to its lowest one
bit; with the default masks they are bit 7 and bits 6:0. -/
def Obligations.OccupancyByteFields : Prop :=
  (∀ (c : Cfg) (s : Byte), occOverflow c s = true ↔ s &&& c.occOvfMask ≠ 0#8) ∧
  (∀ (c : Cfg) (s : Byte) (t : Nat), t < 8 → c.occCntMask.getLsbD t = true →
    (∀ j < t, c.occCntMask.getLsbD j = false) → occCount c s = (s &&& c.occCntMask).toNat / 2 ^ t) ∧
  ∀ (c : Cfg) (s : Byte), c.occOvfMask = 0x80#8 → c.occCntMask = 0x7F#8 →
    occOverflow c s = s.getLsbD 7 ∧ occCount c s = s.toNat % 128

/-! ### INIT and POLL -/

/-- R145 (`PROBE_FIRST` false): the table, the probe, and on a match the re-arm pair; `CHIP_OK`, `BAND` and
`DRV_STATE` are written, one answer is taken, nothing else changes. -/
def Obligations.InitTableThenProbe : Prop :=
  ∀ (b : BitVec 1) (s : State), s.cfg.probeFirst = false →
    let p := s.answerAt s.inp.ansPos
    let table : List BusRecord :=
      s.cfg.table.map fun e => ⟨.wreg e.addr (if b = 0#1 then e.val0 else e.val1), []⟩
    (p = s.cfg.probeExpect →
      exec (.init b) s =
        .next { s with
          u1 := { s.u1 with chipOk := true, band := b, drvState := .armed }
          inp := { s.inp with ansPos := s.inp.ansPos + 1 }
          out :=
            { rsp := some ⟨.ok, p.setWidth 32⟩
              trace := s.out.trace ++ table ++
                [⟨.rreg s.cfg.probeAddr, [p]⟩, ⟨.strobe s.cfg.strobeFlushRx, []⟩,
                 ⟨.strobe s.cfg.strobeEnterRx, []⟩] } }) ∧
    (p ≠ s.cfg.probeExpect →
      exec (.init b) s =
        .next { s with
          u1 := { s.u1 with chipOk := false, band := b, drvState := .idle }
          inp := { s.inp with ansPos := s.inp.ansPos + 1 }
          out :=
            { rsp := some ⟨.eChipNotDetected, p.setWidth 32⟩
              trace := s.out.trace ++ table ++ [⟨.rreg s.cfg.probeAddr, [p]⟩] } })

/-- R148 (`PROBE_FIRST` true): the probe first; on a mismatch nothing more, on a match the table and the re-arm pair;
all state writes as in R145. -/
def Obligations.InitProbeThenTable : Prop :=
  ∀ (b : BitVec 1) (s : State), s.cfg.probeFirst = true →
    let p := s.answerAt s.inp.ansPos
    let table : List BusRecord :=
      s.cfg.table.map fun e => ⟨.wreg e.addr (if b = 0#1 then e.val0 else e.val1), []⟩
    (p = s.cfg.probeExpect →
      exec (.init b) s =
        .next { s with
          u1 := { s.u1 with chipOk := true, band := b, drvState := .armed }
          inp := { s.inp with ansPos := s.inp.ansPos + 1 }
          out :=
            { rsp := some ⟨.ok, p.setWidth 32⟩
              trace := s.out.trace ++ [⟨.rreg s.cfg.probeAddr, [p]⟩] ++ table ++
                [⟨.strobe s.cfg.strobeFlushRx, []⟩, ⟨.strobe s.cfg.strobeEnterRx, []⟩] } }) ∧
    (p ≠ s.cfg.probeExpect →
      exec (.init b) s =
        .next { s with
          u1 := { s.u1 with chipOk := false, band := b, drvState := .idle }
          inp := { s.inp with ansPos := s.inp.ansPos + 1 }
          out :=
            { rsp := some ⟨.eChipNotDetected, p.setWidth 32⟩
              trace := s.out.trace ++ [⟨.rreg s.cfg.probeAddr, [p]⟩] } })

/-- R156: POLL's first occupancy read. The overflow flag wins over the count: the re-arm pair and `NO_DATA`; a zero
count: `NO_DATA` and no further event. `RXLEN` is 0 after either; no byte of RXBUF changes. -/
def Obligations.PollFirstRead : Prop :=
  ∀ s : State,
    let a := s.answerAt s.inp.ansPos
    (occOverflow s.cfg a = true →
      exec .poll s =
        .next { s with
          u1 := { s.u1 with rxlen := 0, drvState := .armed }
          inp := { s.inp with ansPos := s.inp.ansPos + 1 }
          out :=
            { rsp := some ⟨.noData, 0⟩
              trace := s.out.trace ++
                [⟨.rreg s.cfg.occAddr, [a]⟩, ⟨.strobe s.cfg.strobeFlushRx, []⟩,
                 ⟨.strobe s.cfg.strobeEnterRx, []⟩] } }) ∧
    (occOverflow s.cfg a = false → occCount s.cfg a = 0 →
      exec .poll s =
        .next { s with
          u1 := { s.u1 with rxlen := 0 }
          inp := { s.inp with ansPos := s.inp.ansPos + 1 }
          out :=
            { rsp := some ⟨.noData, 0⟩
              trace := s.out.trace ++ [⟨.rreg s.cfg.occAddr, [a]⟩] } })

/-- R157: POLL's second occupancy read, after a first count that was not zero and the one wait of 10 ms: overflow
re-arms, a zero count does not, and either is `NO_DATA`. -/
def Obligations.PollSecondRead : Prop :=
  ∀ s : State,
    let a := s.answerAt s.inp.ansPos
    let b := s.answerAt (s.inp.ansPos + 1)
    occOverflow s.cfg a = false → occCount s.cfg a ≠ 0 →
    (occOverflow s.cfg b = true →
      exec .poll s =
        .next { s with
          u1 := { s.u1 with rxlen := 0, drvState := .armed }
          inp := { s.inp with ansPos := s.inp.ansPos + 2 }
          out :=
            { rsp := some ⟨.noData, 0⟩
              trace := s.out.trace ++
                [⟨.rreg s.cfg.occAddr, [a]⟩, ⟨.wait 10#8, []⟩, ⟨.rreg s.cfg.occAddr, [b]⟩,
                 ⟨.strobe s.cfg.strobeFlushRx, []⟩, ⟨.strobe s.cfg.strobeEnterRx, []⟩] } }) ∧
    (occOverflow s.cfg b = false → occCount s.cfg b = 0 →
      exec .poll s =
        .next { s with
          u1 := { s.u1 with rxlen := 0 }
          inp := { s.inp with ansPos := s.inp.ansPos + 2 }
          out :=
            { rsp := some ⟨.noData, 0⟩
              trace := s.out.trace ++
                [⟨.rreg s.cfg.occAddr, [a]⟩, ⟨.wait 10#8, []⟩, ⟨.rreg s.cfg.occAddr, [b]⟩] } })

/-- R158, R155: a count that is not zero on both reads, without overflow. The burst has the length of the second
count, at most 80; its bytes stand in RXBUF from index 0, in order, and every byte above them is as before; the re-arm
pair follows; `RXLEN`, `DRV_STATE` and the response say so, and nothing else changes. -/
def Obligations.PollDrainsPacket : Prop :=
  ∀ s : State, Memory.wf 80 s.u1.rxbuf = true →
    let a := s.answerAt s.inp.ansPos
    let b := s.answerAt (s.inp.ansPos + 1)
    let n := min (occCount s.cfg b) 80
    occOverflow s.cfg a = false → occCount s.cfg a ≠ 0 → occOverflow s.cfg b = false → occCount s.cfg b ≠ 0 →
    ∃ (t : State) (bs : List Byte), exec .poll s = .next t ∧
      bs.length = n ∧ (∀ k < n, bs[k]? = some (s.answerAt (s.inp.ansPos + 2 + k))) ∧
      t.cfg = s.cfg ∧ t.u2 = s.u2 ∧ t.u3 = s.u3 ∧ t.sum16 = s.sum16 ∧
      t.inp = { s.inp with ansPos := s.inp.ansPos + 2 + n } ∧
      t.u1.chipOk = s.u1.chipOk ∧ t.u1.band = s.u1.band ∧ t.u1.drvState = .armed ∧ t.u1.rxlen.val = n ∧
      (∀ k < n, Memory.read t.u1.rxbuf k = s.answerAt (s.inp.ansPos + 2 + k)) ∧
      (∀ k, n ≤ k → Memory.read t.u1.rxbuf k = Memory.read s.u1.rxbuf k) ∧
      t.out.rsp = some ⟨.ok, BitVec.ofNat 32 n⟩ ∧
      t.out.trace = s.out.trace ++
        [⟨.rreg s.cfg.occAddr, [a]⟩, ⟨.wait 10#8, []⟩, ⟨.rreg s.cfg.occAddr, [b]⟩,
         ⟨.rburst s.cfg.fifoAddr (BitVec.ofNat 8 n), bs⟩,
         ⟨.strobe s.cfg.strobeFlushRx, []⟩, ⟨.strobe s.cfg.strobeEnterRx, []⟩]

/-- R131, over the event list of any POLL: a burst read, and an occupancy read whose answer has the overflow flag, is
followed immediately by the re-arm pair, and the pair is the last two events of the POLL. -/
def Obligations.PollRearmsAfterReadOrOverflow : Prop :=
  ∀ s : State, ∃ (t : State) (evs : List BusRecord),
    exec .poll s = .next t ∧ t.out.trace = s.out.trace ++ evs ∧
    ∀ (before : List BusRecord) (e : BusRecord) (after : List BusRecord), evs = before ++ e :: after →
      ((∃ a n, e.event = .rburst a n) ∨
        (e.event = .rreg s.cfg.occAddr ∧ ∃ b, e.answer = [b] ∧ occOverflow s.cfg b = true)) →
      after = [⟨.strobe s.cfg.strobeFlushRx, []⟩, ⟨.strobe s.cfg.strobeEnterRx, []⟩]

/-- R159: POLL runs the same sequence whatever `CHIP_OK`, `BAND` and `DRV_STATE` are: same events, answers, response
and buffer; `CHIP_OK` and `BAND` stay. -/
def Obligations.PollIsNotGated : Prop :=
  ∀ (s : State) (c : Bool) (b : BitVec 1) (d : DrvState),
    let s' : State := { s with u1 := { s.u1 with chipOk := c, band := b, drvState := d } }
    ∃ t t', exec .poll s = .next t ∧ exec .poll s' = .next t' ∧ t'.out = t.out ∧ t'.inp = t.inp ∧
      t'.u1.rxbuf = t.u1.rxbuf ∧ t'.u1.rxlen = t.u1.rxlen ∧ t'.u1.chipOk = c ∧ t'.u1.band = b ∧
      ((t.u1.drvState = .armed ∧ t'.u1.drvState = .armed) ∨ (t.u1.drvState = s.u1.drvState ∧ t'.u1.drvState = d))

/-- What the re-arm is for, in the reference environment of R74 (informative; log entry 12): whatever radio bytes
arrive before each event, a POLL that returned a packet leaves that chip listening, empty and without overflow. -/
def Obligations.PollLeavesChipSimListening : Prop :=
  ∀ (s t : State) (evs : List BusRecord) (air : List (List Byte)) (cap : Nat) (k k' : Chip),
    s.cfg.strobesWf = true → exec .poll s = .next t → t.out.rsp.map (·.code) = some .ok →
    t.out.trace = s.out.trace ++ evs → air.length = evs.length →
    chipReplay s.cfg cap (air.zip evs) k = some k' →
    k'.listening = true ∧ k'.fifo = [] ∧ k'.ovf = false

/-! ### CRC-8 and DECODE -/

/-- R174 to R177: the CRC engine's micro-operations, and their frame. -/
def Obligations.CrcMicroOperations : Prop :=
  ∀ (s : State) (d : Byte),
    exec .crcHold s = .next s ∧
    exec (.crcByte d) s = .next { s with u2 := { s.u2 with crc8 := crc8Step s.u2.crc8 d } } ∧
    exec .crcClr s = .next { s with u2 := { s.u2 with crc8 := 0x00#8 } } ∧
    exec (.crcLoad d) s = .next { s with u2 := { s.u2 with crc8 := crc8Step 0x00#8 d } }

/-- R173 in plain arithmetic: eight times, double the register and subtract 0x131 without carries when it had bit 7
set; the table form; and the table entries the rule lists. -/
def Obligations.CrcStepArithmetic : Prop :=
  (∀ c d : Byte, (crc8Step c d).toNat =
    (fun x => if 128 ≤ x then (2 * x) ^^^ 0x131 else 2 * x)^[8] (c.toNat ^^^ d.toNat)) ∧
  (∀ c d : Byte, crc8Step c d = crc8Step 0#8 (c ^^^ d)) ∧
  ((List.range 16).map fun x => crc8Step 0#8 (BitVec.ofNat 8 x)) =
    [0x00#8, 0x31#8, 0x62#8, 0x53#8, 0xC4#8, 0xF5#8, 0xA6#8, 0x97#8, 0xB9#8, 0x88#8, 0xDB#8, 0xEA#8, 0x7D#8, 0x4C#8,
     0x1F#8, 0x2E#8] ∧
  crc8Step 0#8 0x10#8 = 0x43#8 ∧ crc8Step 0#8 0x20#8 = 0x86#8 ∧ crc8Step 0#8 0x40#8 = 0x3D#8 ∧
  crc8Step 0#8 0x80#8 = 0x7A#8 ∧ crc8Step 0#8 0xFF#8 = 0xAC#8

/-- R172: the CRC of the empty list, of a list one byte longer, and the check value of "123456789". -/
def Obligations.CrcOfAList : Prop :=
  crc8 [] = 0x00#8 ∧ (∀ (m : List Byte) (d : Byte), crc8 (m ++ [d]) = crc8Step (crc8 m) d) ∧
  crc8 [0x31#8, 0x32#8, 0x33#8, 0x34#8, 0x35#8, 0x36#8, 0x37#8, 0x38#8, 0x39#8] = 0xA2#8

/-- R178 (b) to (e): a list followed by its own CRC has CRC 0; linear over xor for equal lengths; leading zero bytes do
not change it; a list of zeros has CRC 0. -/
def Obligations.CrcAlgebra : Prop :=
  (∀ m : List Byte, crc8 (m ++ [crc8 m]) = 0x00#8) ∧
  (∀ a b : List Byte, a.length = b.length → crc8 (List.zipWith (· ^^^ ·) a b) = crc8 a ^^^ crc8 b) ∧
  (∀ m : List Byte, crc8 (0x00#8 :: m) = crc8 m) ∧
  ∀ n : Nat, crc8 (List.replicate n 0x00#8) = 0x00#8

/-- R178 (f): changing exactly one covered byte always changes the CRC. -/
def Obligations.CrcSeesOneChangedByte : Prop :=
  ∀ (before after : List Byte) (x y : Byte), x ≠ y → crc8 (before ++ x :: after) ≠ crc8 (before ++ y :: after)

/-- R181, R273: fewer than 17 bytes. The CRC register and every latch stay. -/
def Obligations.DecodeTooShort : Prop :=
  ∀ s : State, s.u1.rxlen.val < 17 →
    exec .decode s =
      .next { s with
        u1 := { s.u1 with rxlen := 0 }
        u2 := { s.u2 with wxLast := 0x20#8 }
        out := { s.out with rsp := some ⟨.eTooShort, 0⟩ } }

/-- R274, R182: 17 bytes or more and a CRC over all but the last that differs from the last. The computed CRC stays in
`CRC8`; every latch stays. -/
def Obligations.DecodeChecksumMismatch : Prop :=
  ∀ s : State,
    let n := s.u1.rxlen.val
    let c := crc8 ((List.range (n - 1)).map (Memory.read s.u1.rxbuf))
    17 ≤ n → c ≠ Memory.read s.u1.rxbuf (n - 1) →
    exec .decode s =
      .next { s with
        u1 := { s.u1 with rxlen := 0 }
        u2 := { s.u2 with crc8 := c, wxLast := 0x21#8 }
        out := { s.out with rsp := some ⟨.eWxChecksum, 0⟩ } }

/-- R180 with R183, R187 to R189 and R191 to R197: an accepted DECODE, field by field in plain arithmetic, and its
frame. -/
def Obligations.DecodeAcceptsFrame : Prop :=
  ∀ s : State,
    let n := s.u1.rxlen.val
    let b : Nat → Nat := fun k => (Memory.read s.u1.rxbuf k).toNat
    let c := crc8 ((List.range (n - 1)).map (Memory.read s.u1.rxbuf))
    17 ≤ n → c = Memory.read s.u1.rxbuf (n - 1) →
    ∃ t : State, exec .decode s = .next t ∧
      t.cfg = s.cfg ∧ t.u1 = { s.u1 with rxlen := 0 } ∧ t.u3 = s.u3 ∧ t.sum16 = s.sum16 ∧ t.inp = s.inp ∧
      t.out.trace = s.out.trace ∧
      t.u2.crc8 = c ∧ t.u2.wxLast = 0x00#8 ∧ t.u2.familyWarn = (Memory.read s.u1.rxbuf 0 != s.cfg.familyExpected) ∧
      t.out.rsp = some ⟨.ok, if Memory.read s.u1.rxbuf 0 = s.cfg.familyExpected then 0 else 1⟩ ∧
      t.u2.reading.valid = true ∧
      t.u2.reading.temp.toInt = (b 5 % 16 * 256 + b 6 : Nat) - 400 ∧
      t.u2.reading.hum.toNat = b 7 ∧
      t.u2.reading.wdir.toNat = (if b 8 * 256 + b 9 ≤ 360 then b 8 * 256 + b 9 else 0) ∧
      t.u2.reading.wspd.toNat = b 10 * 36 ∧ t.u2.reading.gust.toNat = b 11 * 36 ∧
      t.u2.reading.rain.toNat = b 12 * 65536 + b 13 * 256 + b 14 ∧
      t.u2.reading.uv.toNat = b 15 ∧
      t.u2.reading.lux.toNat =
        (if 20 ≤ n then b 16 * 16777216 + b 17 * 65536 + b 18 * 256 + b 19 else 0) ∧
      t.u2.reading.battOk = !(Memory.read s.u1.rxbuf 4).getLsbD s.cfg.battLowBit.val ∧
      t.u2.reading.time = s.inp.now % 2 ^ s.cfg.timeW

/-- R170: DECODE emits no event and takes no answer, and its outcome and every latch it writes depend only on `RXLEN`,
the bytes below it, the configuration and, for `WX_TIME`, `now`: two states that agree on the first three agree on the
response, `WX_LAST`, `CRC8` (when the length check passed) and, when accepted, the warning and all latches but
`WX_TIME`, which agrees when `now` does. -/
def Obligations.DecodeIsPure : Prop :=
  ∀ s s' : State, s'.cfg = s.cfg → s'.u1.rxlen = s.u1.rxlen →
    (∀ k < s.u1.rxlen.val, Memory.read s'.u1.rxbuf k = Memory.read s.u1.rxbuf k) →
    ∃ t t', exec .decode s = .next t ∧ exec .decode s' = .next t' ∧
      t.out.trace = s.out.trace ∧ t.inp = s.inp ∧ t'.out.rsp = t.out.rsp ∧
      t'.u2.wxLast = t.u2.wxLast ∧ (17 ≤ s.u1.rxlen.val → t'.u2.crc8 = t.u2.crc8) ∧
      (t.u2.wxLast = 0x00#8 →
        t'.u2.familyWarn = t.u2.familyWarn ∧
        t'.u2.reading = { t.u2.reading with time := t'.u2.reading.time } ∧
        (s'.inp.now = s.inp.now → t'.u2.reading.time = t.u2.reading.time))

/-- R178 (f), conflict C5: any change of exactly one byte of an accepted buffer, its CRC byte included, makes DECODE
answer `E_WX_CHECKSUM`, and no latch changes. -/
def Obligations.DecodeRejectsOneChangedByte : Prop :=
  ∀ (s : State) (k : Nat) (v : Byte), Memory.wf 80 s.u1.rxbuf = true → 17 ≤ s.u1.rxlen.val →
    crc8 ((List.range (s.u1.rxlen.val - 1)).map (Memory.read s.u1.rxbuf)) =
      Memory.read s.u1.rxbuf (s.u1.rxlen.val - 1) →
    k < s.u1.rxlen.val → v ≠ Memory.read s.u1.rxbuf k →
    ∃ t : State,
      exec .decode { s with u1 := { s.u1 with rxbuf := Memory.write s.u1.rxbuf k v } } = .next t ∧
      t.out.rsp = some ⟨.eWxChecksum, 0⟩ ∧ t.u2.reading = s.u2.reading ∧ t.u2.familyWarn = s.u2.familyWarn

/-- R178 (b), example E1: from any state, loading 16 to 79 bytes and their CRC byte makes a buffer that DECODE accepts,
and consumes; a second DECODE finds it too short (R197). -/
def Obligations.LoadedFrameWithItsCrcAccepted : Prop :=
  ∀ (s : State) (m : List Byte), Memory.wf 80 s.u1.rxbuf = true → 16 ≤ m.length → m.length ≤ 79 →
    ∃ t u : State, runInstrs (loadFrame (m ++ [crc8 m]) ++ [.decode]) s = .next t ∧
      t.out.rsp.map (·.code) = some .ok ∧ t.u2.reading.valid = true ∧ t.u1.rxlen.val = 0 ∧
      exec .decode t = .next u ∧ u.out.rsp = some ⟨.eTooShort, 0⟩

/-! ### PUSH and the accumulator -/

/-- R240 to R244: U4's micro-operations in plain arithmetic, and their frame. -/
def Obligations.SumMicroOperations : Prop :=
  ∀ (s : State) (d : Byte),
    exec .sumHold s = .next s ∧
    exec (.sumAdd d) s =
      .next { s with sum16 := BitVec.ofNat 16 ((s.sum16.toNat + d.toNat) % 65536) } ∧
    exec .sumClr s = .next { s with sum16 := 0x0000#16 } ∧
    exec (.sumLoad d) s = .next { s with sum16 := BitVec.ofNat 16 d.toNat }

/-- R214: in `S_FIRST`. 0x42 is stored and counted; any other byte changes no state element; either is `NO_DATA`. -/
def Obligations.PushAwaitingFirstHeader : Prop :=
  ∀ (s : State) (d : Byte), s.u3.syncState = .first →
    (d = 0x42#8 → Memory.wf 32 s.u3.fbuf = true →
      ∃ f : Memory, (∀ k, Memory.read f k = if k = 0 then 0x42#8 else Memory.read s.u3.fbuf k) ∧
        exec (.push d) s =
          .next { s with
            u3 := { s.u3 with syncState := .second, cur := 1, fbuf := f }
            sum16 := 0x0042#16
            out := { s.out with rsp := some ⟨.noData, 0⟩ } }) ∧
    (d ≠ 0x42#8 → exec (.push d) s = .next { s with out := { s.out with rsp := some ⟨.noData, 0⟩ } })

/-- R215, R216: in `S_SECOND`. 0x4D is stored and counted; any other byte, 0x42 included, is consumed and resets the
assembly to empty; either is `NO_DATA`. -/
def Obligations.PushAwaitingSecondHeader : Prop :=
  ∀ (s : State) (d : Byte), s.u3.syncState = .second →
    (d = 0x4D#8 → Memory.wf 32 s.u3.fbuf = true → s.sum16 = 0x0042#16 →
      ∃ f : Memory, (∀ k, Memory.read f k = if k = 1 then 0x4D#8 else Memory.read s.u3.fbuf k) ∧
        exec (.push d) s =
          .next { s with
            u3 := { s.u3 with syncState := .acc, cur := 2, fbuf := f }
            sum16 := 0x008F#16
            out := { s.out with rsp := some ⟨.noData, 0⟩ } }) ∧
    (d ≠ 0x4D#8 →
      exec (.push d) s =
        .next { s with
          u3 := { s.u3 with syncState := .first, cur := 0 }
          sum16 := 0x0000#16
          out := { s.out with rsp := some ⟨.noData, 0⟩ } })

/-- R217: in `S_ACC` before the last byte. Any value is stored at `CUR`; it is added to the sum below index 30 and not
at 30; `NO_DATA`. -/
def Obligations.PushAccumulates : Prop :=
  ∀ (s : State) (d : Byte) (h : s.u3.cur.val < 31), s.u3.syncState = .acc → Memory.wf 32 s.u3.fbuf = true →
    ∃ f : Memory, (∀ k, Memory.read f k = if k = s.u3.cur.val then d else Memory.read s.u3.fbuf k) ∧
      exec (.push d) s =
        .next { s with
          u3 := { s.u3 with cur := ⟨s.u3.cur.val + 1, by omega⟩, fbuf := f }
          sum16 := if s.u3.cur.val < 30 then s.sum16 + d.setWidth 16 else s.sum16
          out := { s.out with rsp := some ⟨.noData, 0⟩ } }

/-- R218, R220 to R223: the 32nd byte. It is stored at index 31; the frame is valid exactly when `SUM16` is the
big-endian value of bytes 30 and 31; a valid frame's nine fields, time stamp, flag and outcome are latched, an invalid
one writes `PM_LAST` only; in both cases the assembly is empty again. -/
def Obligations.PushCompletesFrame : Prop :=
  ∀ (s : State) (d : Byte), s.u3.syncState = .acc → s.u3.cur.val = 31 → Memory.wf 32 s.u3.fbuf = true →
    s.cfg.offsetsWf = true →
    let b : Nat → Nat := fun k => (Memory.read s.u3.fbuf k).toNat
    ∃ t : State, exec (.push d) s = .next t ∧
      t.cfg = s.cfg ∧ t.u1 = s.u1 ∧ t.u2 = s.u2 ∧ t.inp = s.inp ∧ t.out.trace = s.out.trace ∧
      t.u3.syncState = .first ∧ t.u3.cur.val = 0 ∧ t.sum16 = 0x0000#16 ∧
      (∀ k, Memory.read t.u3.fbuf k = if k = 31 then d else Memory.read s.u3.fbuf k) ∧
      (s.sum16.toNat = b 30 * 256 + d.toNat →
        t.out.rsp = some ⟨.ok, 0⟩ ∧ t.u3.pmLast = 0x00#8 ∧ t.u3.reading.valid = true ∧
        (∀ j : Fin 3, t.u3.reading.mass[j].toNat = b s.cfg.pmMassOff[j] * 256 + b (s.cfg.pmMassOff[j] + 1)) ∧
        (∀ j : Fin 6, t.u3.reading.cnt[j].toNat = b s.cfg.pmCntOff[j] * 256 + b (s.cfg.pmCntOff[j] + 1)) ∧
        t.u3.reading.time = s.inp.now % 2 ^ s.cfg.timeW) ∧
      (s.sum16.toNat ≠ b 30 * 256 + d.toNat →
        t.out.rsp = some ⟨.ePmChecksum, 0⟩ ∧ t.u3.pmLast = 0x30#8 ∧ t.u3.reading = s.u3.reading)

/-- R220, R35: while the invariants of U3 hold the running sum is at most 7283 (0x1C73), so the modulus never takes
effect, and once both header bytes are stored it is at least 143 (0x008F). -/
def Obligations.SumStaysWithinBounds : Prop :=
  ∀ s : State, FrameInv s → s.sum16.toNat ≤ 7283 ∧ (s.u3.syncState = .acc → 143 ≤ s.sum16.toNat)

/-- Examples E5 and E9 for every frame: from `S_FIRST`, the header, any 28 field bytes and the two bytes of their sum
with the header give a valid reading whose nine fields are the frame's big-endian fields; any other last two bytes give
`E_PM_CHECKSUM` and leave the reading. Either way the next byte is examined as a first header byte. -/
def Obligations.StreamedFrameIsRead : Prop :=
  ∀ (s : State) (ds : List Byte) (hi lo : Byte), s.u3.syncState = .first → Memory.wf 32 s.u3.fbuf = true →
    s.cfg.offsetsWf = true → ds.length = 28 →
    let frame := [0x42#8, 0x4D#8] ++ ds ++ [hi, lo]
    let b : Nat → Nat := fun k => (frame.getD k 0).toNat
    ∃ t : State, runInstrs (pushN frame) s = .next t ∧ t.u3.syncState = .first ∧ t.u3.cur.val = 0 ∧
      (hi.toNat * 256 + lo.toNat = 0x42 + 0x4D + (ds.map BitVec.toNat).sum →
        t.out.rsp = some ⟨.ok, 0⟩ ∧ t.u3.reading.valid = true ∧
        (∀ j : Fin 3, t.u3.reading.mass[j].toNat = b s.cfg.pmMassOff[j] * 256 + b (s.cfg.pmMassOff[j] + 1)) ∧
        (∀ j : Fin 6, t.u3.reading.cnt[j].toNat = b s.cfg.pmCntOff[j] * 256 + b (s.cfg.pmCntOff[j] + 1))) ∧
      (hi.toNat * 256 + lo.toNat ≠ 0x42 + 0x4D + (ds.map BitVec.toNat).sum →
        t.out.rsp = some ⟨.ePmChecksum, 0⟩ ∧ t.u3.reading = s.u3.reading)

/-- R226: from any state that meets the invariants of U3, whatever 31 bytes come, U3 is in `S_FIRST` with nothing
stored after some number of them. -/
def Obligations.ResyncWithin31Bytes : Prop :=
  ∀ (s : State) (ds : List Byte), FrameInv s → ds.length = 31 →
    ∃ k t, k ≤ 31 ∧ runInstrs (pushN (ds.take k)) s = .next t ∧ t.u3.syncState = .first ∧ t.u3.cur.val = 0 ∧
      t.sum16 = 0x0000#16

/-- R225: chunks do not matter, neither to the state nor to the responses; and any other host commands may come between
two PUSH commands without effect on U3 and U4. R225 excepts `now`, the one input that is not chunk-invariant: `PM_TIME`
agrees here because the model runs all these commands on one `now` (its choice, log entry 22). -/
def Obligations.PushesAreChunkInvariant : Prop :=
  (∀ (x y : List Byte) (s : State), ∃ t u : State,
    runInstrs (pushN x) s = .next t ∧ runInstrs (pushN y) t = .next u ∧ runInstrs (pushN (x ++ y)) s = .next u ∧
    runRsps (pushN (x ++ y)) s = runRsps (pushN x) s ++ runRsps (pushN y) t) ∧
  ∀ (is : List Instr) (s : State), (∀ i ∈ is, i.isHost = true) →
    ∃ t t' : State, runInstrs is s = .next t ∧
      runInstrs (is.filter fun i => match i with | .push _ => true | _ => false) s = .next t' ∧
      t.u3 = t'.u3 ∧ t.sum16 = t'.sum16

/-- R112, R315: a polling cycle, its commands run on one set of inputs (log entry 22), never leaves a packet behind,
never clears either reading, and does to U3 and U4 what its bytes alone do. If its POLL returned a packet, `WX_LAST` is
that packet's outcome by length and CRC, and an accepted packet is the weather reading; if not, U2 is as it was. -/
def Obligations.CycleConsumesItsPacket : Prop :=
  ∀ (us : List Byte) (s : State), ∃ p t t' : State,
    exec .poll s = .next p ∧ cycle us s = .next t ∧ runInstrs (pushN us) s = .next t' ∧
    t.u1.rxlen.val = 0 ∧ t.u3 = t'.u3 ∧ t.sum16 = t'.sum16 ∧
    (s.u2.reading.valid = true → t.u2.reading.valid = true) ∧
    (s.u3.reading.valid = true → t.u3.reading.valid = true) ∧
    (p.out.rsp.map (·.code) = some .ok →
      let n := p.u1.rxlen.val
      let crcGood := crc8 ((List.range (n - 1)).map (Memory.read p.u1.rxbuf)) = Memory.read p.u1.rxbuf (n - 1)
      (n < 17 → t.u2.wxLast = 0x20#8 ∧ t.u2.reading = s.u2.reading) ∧
      (17 ≤ n → ¬ crcGood → t.u2.wxLast = 0x21#8 ∧ t.u2.reading = s.u2.reading) ∧
      (17 ≤ n → crcGood →
        t.u2.wxLast = 0x00#8 ∧ t.u2.reading = wxReadingOf s.cfg p.u1.rxbuf n (s.inp.now % 2 ^ s.cfg.timeW))) ∧
    (p.out.rsp.map (·.code) ≠ some .ok → t.u2 = s.u2)

/-! ### Host access -/

/-- R250, R40, R42: RD of each of the 27 implemented registers answers `OK` and its value; RD of any other number
answers `E_RANGE` and 0; nothing else changes. -/
def Obligations.RdReturnsRegisters : Prop :=
  ∀ s : State,
    (∀ p ∈
      [(0x00#8, statusWord s), (0x01#8, BitVec.ofNat 32 s.u1.rxlen.val), (0x02#8, s.u2.wxLast.setWidth 32),
       (0x03#8, s.u3.pmLast.setWidth 32), (0x04#8, BitVec.ofNat 32 s.u3.cur.val), (0x05#8, s.sum16.setWidth 32),
       (0x06#8, s.u2.crc8.setWidth 32)] ++
      [(0x10#8, BitVec.ofInt 32 s.u2.reading.temp.toInt), (0x11#8, s.u2.reading.hum.setWidth 32),
       (0x12#8, s.u2.reading.wdir.setWidth 32), (0x13#8, s.u2.reading.wspd.setWidth 32),
       (0x14#8, s.u2.reading.gust.setWidth 32), (0x15#8, s.u2.reading.rain.setWidth 32),
       (0x16#8, s.u2.reading.uv.setWidth 32), (0x17#8, s.u2.reading.lux),
       (0x18#8, if s.u2.reading.battOk then 1#32 else 0#32), (0x19#8, BitVec.ofNat 32 s.u2.reading.time)] ++
      [(0x20#8, s.u3.reading.mass[0].setWidth 32), (0x21#8, s.u3.reading.mass[1].setWidth 32),
       (0x22#8, s.u3.reading.mass[2].setWidth 32), (0x23#8, s.u3.reading.cnt[0].setWidth 32),
       (0x24#8, s.u3.reading.cnt[1].setWidth 32), (0x25#8, s.u3.reading.cnt[2].setWidth 32),
       (0x26#8, s.u3.reading.cnt[3].setWidth 32), (0x27#8, s.u3.reading.cnt[4].setWidth 32),
       (0x28#8, s.u3.reading.cnt[5].setWidth 32), (0x29#8, BitVec.ofNat 32 s.u3.reading.time)],
      exec (.rd p.1) s = .next { s with out := { s.out with rsp := some ⟨.ok, p.2⟩ } }) ∧
    ∀ r : Byte,
      (0x07 ≤ r.toNat ∧ r.toNat ≤ 0x0F) ∨ (0x1A ≤ r.toNat ∧ r.toNat ≤ 0x1F) ∨ 0x2A ≤ r.toNat →
      exec (.rd r) s = .next { s with out := { s.out with rsp := some ⟨.eRange, 0⟩ } }

/-- R41: the fields of STATUS. -/
def Obligations.StatusFields : Prop :=
  ∀ s : State,
    let w := statusWord s
    w.getLsbD 0 = s.u1.chipOk ∧ w.getLsbD 1 = s.u2.reading.valid ∧ w.getLsbD 2 = s.u3.reading.valid ∧
    w.getLsbD 3 = s.u2.familyWarn ∧ w.extractLsb' 4 1 = s.u1.band ∧
    w.extractLsb' 5 2 =
      (match s.u1.drvState with | .idle => 0#2 | .armed => 1#2 | .draining => 2#2 | .rearm => 3#2) ∧
    w.getLsbD 7 = false ∧
    w.extractLsb' 8 2 = (match s.u3.syncState with | .first => 0#2 | .second => 1#2 | .acc => 2#2) ∧
    ∀ k, 10 ≤ k → w.getLsbD k = false

/-- R252, R254, R256: RDBUF reads below `RXLEN` and is refused at or above it; LDBUF appends, and is refused with 80
when the buffer is full; CLRBUF sets `RXLEN` to 0. The frame of each. -/
def Obligations.BufferCommands : Prop :=
  ∀ (s : State) (i d : Byte),
    (i.toNat < s.u1.rxlen.val →
      exec (.rdbuf i) s =
        .next { s with out := { s.out with rsp := some ⟨.ok, (Memory.read s.u1.rxbuf i.toNat).setWidth 32⟩ } }) ∧
    (s.u1.rxlen.val ≤ i.toNat →
      exec (.rdbuf i) s = .next { s with out := { s.out with rsp := some ⟨.eRange, 0⟩ } }) ∧
    (∀ h : s.u1.rxlen.val < 80, Memory.wf 80 s.u1.rxbuf = true →
      ∃ m : Memory, (∀ k, Memory.read m k = if k = s.u1.rxlen.val then d else Memory.read s.u1.rxbuf k) ∧
        exec (.ldbuf d) s =
          .next { s with
            u1 := { s.u1 with rxbuf := m, rxlen := ⟨s.u1.rxlen.val + 1, by omega⟩ }
            out := { s.out with rsp := some ⟨.ok, BitVec.ofNat 32 (s.u1.rxlen.val + 1)⟩ } }) ∧
    (s.u1.rxlen.val = 80 →
      exec (.ldbuf d) s = .next { s with out := { s.out with rsp := some ⟨.eRange, 80#32⟩ } }) ∧
    exec .clrbuf s =
      .next { s with u1 := { s.u1 with rxlen := 0 }, out := { s.out with rsp := some ⟨.ok, 0⟩ } }
end

