-- ==== Sys2Proof/Laws/State.lean ====
section
/-! SUPPORT. One lemma per state group per update: what each named update does to `cfg`, `u1`, `u2`, `u3`, `sum16`,
`inp` and `out`. Later proofs rewrite with these and unfold no record update. -/

namespace Sys2Proof.Machine

open Sys2Proof

variable (s : State)

/-! ### `perform` -/

@[simp] theorem State.perform_cfg (e : BusEvent) : (s.perform e).cfg = s.cfg := rfl
@[simp] theorem State.perform_u1 (e : BusEvent) : (s.perform e).u1 = s.u1 := rfl
@[simp] theorem State.perform_u2 (e : BusEvent) : (s.perform e).u2 = s.u2 := rfl
@[simp] theorem State.perform_u3 (e : BusEvent) : (s.perform e).u3 = s.u3 := rfl
@[simp] theorem State.perform_sum16 (e : BusEvent) : (s.perform e).sum16 = s.sum16 := rfl
@[simp] theorem State.perform_inp (e : BusEvent) :
    (s.perform e).inp = { s.inp with ansPos := s.inp.ansPos + answerLen e } := rfl
@[simp] theorem State.perform_out (e : BusEvent) :
    (s.perform e).out = { s.out with trace := s.out.trace ++ [⟨e, s.answerBytes (answerLen e)⟩] } := rfl

/-! ### `setDrv` -/

@[simp] theorem State.setDrv_cfg (d : DrvState) : (s.setDrv d).cfg = s.cfg := rfl
@[simp] theorem State.setDrv_u1 (d : DrvState) : (s.setDrv d).u1 = { s.u1 with drvState := d } := rfl
@[simp] theorem State.setDrv_u2 (d : DrvState) : (s.setDrv d).u2 = s.u2 := rfl
@[simp] theorem State.setDrv_u3 (d : DrvState) : (s.setDrv d).u3 = s.u3 := rfl
@[simp] theorem State.setDrv_sum16 (d : DrvState) : (s.setDrv d).sum16 = s.sum16 := rfl
@[simp] theorem State.setDrv_inp (d : DrvState) : (s.setDrv d).inp = s.inp := rfl
@[simp] theorem State.setDrv_out (d : DrvState) : (s.setDrv d).out = s.out := rfl

/-! ### `setChipOk` -/

@[simp] theorem State.setChipOk_cfg (b : Bool) : (s.setChipOk b).cfg = s.cfg := rfl
@[simp] theorem State.setChipOk_u1 (b : Bool) : (s.setChipOk b).u1 = { s.u1 with chipOk := b } := rfl
@[simp] theorem State.setChipOk_u2 (b : Bool) : (s.setChipOk b).u2 = s.u2 := rfl
@[simp] theorem State.setChipOk_u3 (b : Bool) : (s.setChipOk b).u3 = s.u3 := rfl
@[simp] theorem State.setChipOk_sum16 (b : Bool) : (s.setChipOk b).sum16 = s.sum16 := rfl
@[simp] theorem State.setChipOk_inp (b : Bool) : (s.setChipOk b).inp = s.inp := rfl
@[simp] theorem State.setChipOk_out (b : Bool) : (s.setChipOk b).out = s.out := rfl

/-! ### `setBand` -/

@[simp] theorem State.setBand_cfg (b : BitVec 1) : (s.setBand b).cfg = s.cfg := rfl
@[simp] theorem State.setBand_u1 (b : BitVec 1) : (s.setBand b).u1 = { s.u1 with band := b } := rfl
@[simp] theorem State.setBand_u2 (b : BitVec 1) : (s.setBand b).u2 = s.u2 := rfl
@[simp] theorem State.setBand_u3 (b : BitVec 1) : (s.setBand b).u3 = s.u3 := rfl
@[simp] theorem State.setBand_sum16 (b : BitVec 1) : (s.setBand b).sum16 = s.sum16 := rfl
@[simp] theorem State.setBand_inp (b : BitVec 1) : (s.setBand b).inp = s.inp := rfl
@[simp] theorem State.setBand_out (b : BitVec 1) : (s.setBand b).out = s.out := rfl

/-! ### `setRxLen` -/

@[simp] theorem State.setRxLen_cfg (n : Fin 81) : (s.setRxLen n).cfg = s.cfg := rfl
@[simp] theorem State.setRxLen_u1 (n : Fin 81) : (s.setRxLen n).u1 = { s.u1 with rxlen := n } := rfl
@[simp] theorem State.setRxLen_u2 (n : Fin 81) : (s.setRxLen n).u2 = s.u2 := rfl
@[simp] theorem State.setRxLen_u3 (n : Fin 81) : (s.setRxLen n).u3 = s.u3 := rfl
@[simp] theorem State.setRxLen_sum16 (n : Fin 81) : (s.setRxLen n).sum16 = s.sum16 := rfl
@[simp] theorem State.setRxLen_inp (n : Fin 81) : (s.setRxLen n).inp = s.inp := rfl
@[simp] theorem State.setRxLen_out (n : Fin 81) : (s.setRxLen n).out = s.out := rfl

/-! ### `storeRx` -/

@[simp] theorem State.storeRx_cfg (bs : List Byte) : (s.storeRx bs).cfg = s.cfg := rfl
@[simp] theorem State.storeRx_u1 (bs : List Byte) :
    (s.storeRx bs).u1 = { s.u1 with rxbuf := Memory.writeList s.u1.rxbuf 0 bs } := rfl
@[simp] theorem State.storeRx_u2 (bs : List Byte) : (s.storeRx bs).u2 = s.u2 := rfl
@[simp] theorem State.storeRx_u3 (bs : List Byte) : (s.storeRx bs).u3 = s.u3 := rfl
@[simp] theorem State.storeRx_sum16 (bs : List Byte) : (s.storeRx bs).sum16 = s.sum16 := rfl
@[simp] theorem State.storeRx_inp (bs : List Byte) : (s.storeRx bs).inp = s.inp := rfl
@[simp] theorem State.storeRx_out (bs : List Byte) : (s.storeRx bs).out = s.out := rfl

/-! ### `rearm` -/

@[simp] theorem State.rearm_cfg : (s.rearm).cfg = s.cfg := rfl
@[simp] theorem State.rearm_u1 : (s.rearm).u1 = { s.u1 with drvState := .armed } := rfl
@[simp] theorem State.rearm_u2 : (s.rearm).u2 = s.u2 := rfl
@[simp] theorem State.rearm_u3 : (s.rearm).u3 = s.u3 := rfl
@[simp] theorem State.rearm_sum16 : (s.rearm).sum16 = s.sum16 := rfl
@[simp] theorem State.rearm_inp : (s.rearm).inp = s.inp := rfl
@[simp] theorem State.rearm_out :
    (s.rearm).out = { s.out with trace := s.out.trace ++ [⟨.strobe s.cfg.strobeFlushRx, []⟩] ++ [⟨.strobe s.cfg.strobeEnterRx, []⟩] } := rfl

/-! ### `respond` -/

@[simp] theorem State.respond_cfg (c : Code) (d : Word32) : (s.respond c d).cfg = s.cfg := rfl
@[simp] theorem State.respond_u1 (c : Code) (d : Word32) : (s.respond c d).u1 = s.u1 := rfl
@[simp] theorem State.respond_u2 (c : Code) (d : Word32) : (s.respond c d).u2 = s.u2 := rfl
@[simp] theorem State.respond_u3 (c : Code) (d : Word32) : (s.respond c d).u3 = s.u3 := rfl
@[simp] theorem State.respond_sum16 (c : Code) (d : Word32) : (s.respond c d).sum16 = s.sum16 := rfl
@[simp] theorem State.respond_inp (c : Code) (d : Word32) : (s.respond c d).inp = s.inp := rfl
@[simp] theorem State.respond_out (c : Code) (d : Word32) :
    (s.respond c d).out = { s.out with rsp := some ⟨c, d⟩ } := rfl

/-! ### `driveCrc` -/

@[simp] theorem State.driveCrc_cfg (clr en : Bool) (d : Byte) : (s.driveCrc clr en d).cfg = s.cfg := rfl
@[simp] theorem State.driveCrc_u1 (clr en : Bool) (d : Byte) : (s.driveCrc clr en d).u1 = s.u1 := rfl
@[simp] theorem State.driveCrc_u2 (clr en : Bool) (d : Byte) :
    (s.driveCrc clr en d).u2 = { s.u2 with crc8 := crcNext clr en d s.u2.crc8 } := rfl
@[simp] theorem State.driveCrc_u3 (clr en : Bool) (d : Byte) : (s.driveCrc clr en d).u3 = s.u3 := rfl
@[simp] theorem State.driveCrc_sum16 (clr en : Bool) (d : Byte) : (s.driveCrc clr en d).sum16 = s.sum16 := rfl
@[simp] theorem State.driveCrc_inp (clr en : Bool) (d : Byte) : (s.driveCrc clr en d).inp = s.inp := rfl
@[simp] theorem State.driveCrc_out (clr en : Bool) (d : Byte) : (s.driveCrc clr en d).out = s.out := rfl

/-! ### `driveSum` -/

@[simp] theorem State.driveSum_cfg (clr en : Bool) (d : Byte) : (s.driveSum clr en d).cfg = s.cfg := rfl
@[simp] theorem State.driveSum_u1 (clr en : Bool) (d : Byte) : (s.driveSum clr en d).u1 = s.u1 := rfl
@[simp] theorem State.driveSum_u2 (clr en : Bool) (d : Byte) : (s.driveSum clr en d).u2 = s.u2 := rfl
@[simp] theorem State.driveSum_u3 (clr en : Bool) (d : Byte) : (s.driveSum clr en d).u3 = s.u3 := rfl
@[simp] theorem State.driveSum_sum16 (clr en : Bool) (d : Byte) :
    (s.driveSum clr en d).sum16 = sumNext clr en d s.sum16 := rfl
@[simp] theorem State.driveSum_inp (clr en : Bool) (d : Byte) : (s.driveSum clr en d).inp = s.inp := rfl
@[simp] theorem State.driveSum_out (clr en : Bool) (d : Byte) : (s.driveSum clr en d).out = s.out := rfl

/-! ### `storeFrame` -/

@[simp] theorem State.storeFrame_cfg (c : Nat) (d : Byte) : (s.storeFrame c d).cfg = s.cfg := rfl
@[simp] theorem State.storeFrame_u1 (c : Nat) (d : Byte) : (s.storeFrame c d).u1 = s.u1 := rfl
@[simp] theorem State.storeFrame_u2 (c : Nat) (d : Byte) : (s.storeFrame c d).u2 = s.u2 := rfl
@[simp] theorem State.storeFrame_u3 (c : Nat) (d : Byte) :
    (s.storeFrame c d).u3 = { s.u3 with fbuf := Memory.write s.u3.fbuf c d } := rfl
@[simp] theorem State.storeFrame_sum16 (c : Nat) (d : Byte) : (s.storeFrame c d).sum16 = s.sum16 := rfl
@[simp] theorem State.storeFrame_inp (c : Nat) (d : Byte) : (s.storeFrame c d).inp = s.inp := rfl
@[simp] theorem State.storeFrame_out (c : Nat) (d : Byte) : (s.storeFrame c d).out = s.out := rfl

/-! ### `setSync` -/

@[simp] theorem State.setSync_cfg (q : SyncState) (c : Fin 32) : (s.setSync q c).cfg = s.cfg := rfl
@[simp] theorem State.setSync_u1 (q : SyncState) (c : Fin 32) : (s.setSync q c).u1 = s.u1 := rfl
@[simp] theorem State.setSync_u2 (q : SyncState) (c : Fin 32) : (s.setSync q c).u2 = s.u2 := rfl
@[simp] theorem State.setSync_u3 (q : SyncState) (c : Fin 32) :
    (s.setSync q c).u3 = { s.u3 with syncState := q, cur := c } := rfl
@[simp] theorem State.setSync_sum16 (q : SyncState) (c : Fin 32) : (s.setSync q c).sum16 = s.sum16 := rfl
@[simp] theorem State.setSync_inp (q : SyncState) (c : Fin 32) : (s.setSync q c).inp = s.inp := rfl
@[simp] theorem State.setSync_out (q : SyncState) (c : Fin 32) : (s.setSync q c).out = s.out := rfl

/-! ### `emptyFrame` -/

@[simp] theorem State.emptyFrame_cfg : (s.emptyFrame).cfg = s.cfg := rfl
@[simp] theorem State.emptyFrame_u1 : (s.emptyFrame).u1 = s.u1 := rfl
@[simp] theorem State.emptyFrame_u2 : (s.emptyFrame).u2 = s.u2 := rfl
@[simp] theorem State.emptyFrame_u3 : (s.emptyFrame).u3 = { s.u3 with syncState := .first, cur := 0 } := rfl
@[simp] theorem State.emptyFrame_sum16 : (s.emptyFrame).sum16 = 0#16 := rfl
@[simp] theorem State.emptyFrame_inp : (s.emptyFrame).inp = s.inp := rfl
@[simp] theorem State.emptyFrame_out : (s.emptyFrame).out = s.out := rfl

/-! ### `accept` -/

@[simp] theorem State.accept_cfg (r : Request) (rest : List Request) : (s.accept r rest).cfg = s.cfg := rfl
@[simp] theorem State.accept_u1 (r : Request) (rest : List Request) : (s.accept r rest).u1 = s.u1 := rfl
@[simp] theorem State.accept_u2 (r : Request) (rest : List Request) : (s.accept r rest).u2 = s.u2 := rfl
@[simp] theorem State.accept_u3 (r : Request) (rest : List Request) : (s.accept r rest).u3 = s.u3 := rfl
@[simp] theorem State.accept_sum16 (r : Request) (rest : List Request) : (s.accept r rest).sum16 = s.sum16 := rfl
@[simp] theorem State.accept_inp (r : Request) (rest : List Request) :
    (s.accept r rest).inp = ⟨rest, r.now.getD (Config.freeNow s.inp.cmdNo), r.answers, 0, s.inp.cmdNo + 1⟩ := rfl
@[simp] theorem State.accept_out (r : Request) (rest : List Request) : (s.accept r rest).out = ⟨none, []⟩ := rfl

/-! ### `pushRequest` -/

@[simp] theorem State.pushRequest_cfg (r : Request) : (s.pushRequest r).cfg = s.cfg := rfl
@[simp] theorem State.pushRequest_u1 (r : Request) : (s.pushRequest r).u1 = s.u1 := rfl
@[simp] theorem State.pushRequest_u2 (r : Request) : (s.pushRequest r).u2 = s.u2 := rfl
@[simp] theorem State.pushRequest_u3 (r : Request) : (s.pushRequest r).u3 = s.u3 := rfl
@[simp] theorem State.pushRequest_sum16 (r : Request) : (s.pushRequest r).sum16 = s.sum16 := rfl
@[simp] theorem State.pushRequest_inp (r : Request) :
    (s.pushRequest r).inp = { s.inp with requests := r :: s.inp.requests } := rfl
@[simp] theorem State.pushRequest_out (r : Request) : (s.pushRequest r).out = s.out := rfl

end Sys2Proof.Machine
end

