-- ==== Sys2Proof/Laws/Crc.lean ====
section
/-! SUPPORT. The laws of the CRC-8 register: a shift is linear over xor and loses nothing, so a step is a bijection in
either argument; and what a run of `CRC_BYTE` does. -/

namespace Sys2Proof.Machine

open Sys2Proof

theorem xor_swap (a b c d : Byte) : a ^^^ c ^^^ (b ^^^ d) = a ^^^ b ^^^ (c ^^^ d) := by ac_rfl

theorem crc8Shift_xor (a b : Byte) : crc8Shift (a ^^^ b) = crc8Shift a ^^^ crc8Shift b := by
  unfold crc8Shift
  rw [BitVec.getLsbD_xor]
  cases a.getLsbD 7 <;> cases b.getLsbD 7 <;> simp only [BitVec.shiftLeft_xor_distrib, Bool.xor_false,
    Bool.false_xor, Bool.xor_self, if_true, Bool.false_eq_true, if_false]
  · ac_rfl
  · ac_rfl
  · rw [xor_swap, BitVec.xor_self, BitVec.xor_zero]

theorem crc8Shifts_xor : ∀ (k : Nat) (a b : Byte), crc8Shifts k (a ^^^ b) = crc8Shifts k a ^^^ crc8Shifts k b
  | 0, _, _ => rfl
  | k + 1, a, b => by simp only [crc8Shifts, crc8Shift_xor, crc8Shifts_xor k]

/-- Only 0 has the image 0 after eight shifts (R178 f: 0x31 has its bit 0 set). -/
theorem crc8Shifts_eq_zero : ∀ a : Byte, crc8Shifts 8 a = 0#8 → a = 0#8 := by decide +kernel

theorem crc8Step_xor (c c' d d' : Byte) :
    crc8Step (c ^^^ c') (d ^^^ d') = crc8Step c d ^^^ crc8Step c' d' := by
  unfold crc8Step
  rw [← crc8Shifts_xor]
  congr 1
  ac_rfl

theorem crc8Step_zero_zero : crc8Step 0#8 0#8 = 0#8 := by decide

theorem crc8Step_self (c : Byte) : crc8Step c c = 0#8 := by
  unfold crc8Step
  rw [BitVec.xor_self]
  decide

theorem xor_eq_zero {a b : Byte} (h : a ^^^ b = 0#8) : a = b := by
  have : a ^^^ b ^^^ b = 0#8 ^^^ b := by rw [h]
  simpa [BitVec.xor_assoc] using this

/-- `c -> crc8_step(c, d)` is one to one (R178 f). -/
theorem crc8Step_inj_left {c c' d : Byte} (h : crc8Step c d = crc8Step c' d) : c = c' := by
  have h2 : crc8Shifts 8 (c ^^^ d ^^^ (c' ^^^ d)) = 0#8 := by
    rw [crc8Shifts_xor]
    unfold crc8Step at h
    rw [h, BitVec.xor_self]
  have h3 := xor_eq_zero (crc8Shifts_eq_zero _ h2)
  have : c ^^^ d ^^^ d = c' ^^^ d ^^^ d := by rw [h3]
  simpa [BitVec.xor_assoc] using this

/-- `d -> crc8_step(c, d)` is one to one (R178 f). -/
theorem crc8Step_inj_right {c d d' : Byte} (h : crc8Step c d = crc8Step c d') : d = d' := by
  unfold crc8Step at h
  rw [BitVec.xor_comm c d, BitVec.xor_comm c d'] at h
  exact crc8Step_inj_left (c := d) (c' := d') (d := c) h

theorem foldl_crc8Step_inj : ∀ {bs : List Byte} {c c' : Byte},
    bs.foldl crc8Step c = bs.foldl crc8Step c' → c = c'
  | [], _, _, h => h
  | _ :: _, _, _, h => crc8Step_inj_left (foldl_crc8Step_inj h)

theorem crc8_append_singleton (m : List Byte) (b : Byte) : crc8 (m ++ [b]) = crc8Step (crc8 m) b := by
  simp [crc8]

/-- What a run of `CRC_BYTE` does: the register goes through the bytes, and nothing else changes. -/
theorem State.crcBytes_eq : ∀ (bs : List Byte) (s : State),
    s.crcBytes bs = { s with u2 := { s.u2 with crc8 := bs.foldl crc8Step s.u2.crc8 } }
  | [], _ => rfl
  | b :: bs, s => by
    rw [State.crcBytes, State.crcBytes_eq bs]
    rfl

/-- `CRC_CLR`, then one `CRC_BYTE` per byte: the register holds the CRC of the bytes (R180). -/
theorem State.crcClr_crcBytes (bs : List Byte) (s : State) :
    (s.driveCrc true false 0).crcBytes bs = { s with u2 := { s.u2 with crc8 := crc8 bs } } := by
  rw [State.crcBytes_eq]
  rfl

end Sys2Proof.Machine
end

