-- ==== Sys2Proof/Laws/Decode.lean ====
section
/-! SUPPORT. The fields of an encoded word are the fields it was made of, and a word is made of its fields. -/

namespace Sys2Proof

@[simp] theorem opField_hWord (op : BitVec 4) (imm : Byte) : opField (hWord op imm) = op := by
  unfold opField hWord
  ext i hi
  simp only [BitVec.getElem_extractLsb', BitVec.getLsbD_append]
  have h1 : ¬ 12 + i < 8 := by omega
  have h2 : ¬ 12 + i - 8 < 4 := by omega
  have h3 : 12 + i - 8 - 4 = i := by omega
  simp [h1, h2, h3, hi]

@[simp] theorem zField_hWord (op : BitVec 4) (imm : Byte) : zField (hWord op imm) = 0#4 := by
  unfold zField hWord
  ext i hi
  simp only [BitVec.getElem_extractLsb', BitVec.getLsbD_append]
  have h1 : ¬ 8 + i < 8 := by omega
  simp [h1]
  omega

@[simp] theorem immField_hWord (op : BitVec 4) (imm : Byte) : immField (hWord op imm) = imm := by
  unfold immField hWord
  ext i hi
  simp only [BitVec.getElem_extractLsb', BitVec.getLsbD_append]
  simp [hi]

@[simp] theorem kindField_bWord (k : BitVec 4) (a d : Byte) : kindField (bWord k a d) = k := by
  unfold kindField bWord
  ext i hi
  simp only [BitVec.getElem_extractLsb', BitVec.getLsbD_append]
  have h1 : ¬ 16 + i < 8 := by omega
  have h2 : ¬ 16 + i - 8 < 8 := by omega
  have h3 : 16 + i - 8 - 8 = i := by omega
  simp [h1, h2, h3, hi]

@[simp] theorem aField_bWord (k : BitVec 4) (a d : Byte) : aField (bWord k a d) = a := by
  unfold aField bWord
  ext i hi
  simp only [BitVec.getElem_extractLsb', BitVec.getLsbD_append]
  have h1 : ¬ 8 + i < 8 := by omega
  have h2 : 8 + i - 8 = i := by omega
  simp [h1, h2, hi]

@[simp] theorem dField_bWord (k : BitVec 4) (a d : Byte) : dField (bWord k a d) = d := by
  unfold dField bWord
  ext i hi
  simp only [BitVec.getElem_extractLsb', BitVec.getLsbD_append]
  simp [hi]

theorem kWord_getLsbD_clr (c e : BitVec 1) (d : Byte) : (kWord c e d).getLsbD 9 = c.getLsbD 0 := by
  unfold kWord
  simp only [BitVec.getLsbD_append]
  simp

theorem kWord_getLsbD_en (c e : BitVec 1) (d : Byte) : (kWord c e d).getLsbD 8 = e.getLsbD 0 := by
  unfold kWord
  simp only [BitVec.getLsbD_append]
  simp

@[simp] theorem kWord_clr (x y : BitVec 1) (d : Byte) : (kWord x y d)[9] = x[0] := by
  rw [← BitVec.getLsbD_eq_getElem, kWord_getLsbD_clr, BitVec.getLsbD_eq_getElem]

@[simp] theorem kWord_en (x y : BitVec 1) (d : Byte) : (kWord x y d)[8] = y[0] := by
  rw [← BitVec.getLsbD_eq_getElem, kWord_getLsbD_en, BitVec.getLsbD_eq_getElem]

@[simp] theorem kWord_d (c e : BitVec 1) (d : Byte) : (kWord c e d).extractLsb' 0 8 = d := by
  unfold kWord
  ext i hi
  simp only [BitVec.getElem_extractLsb', BitVec.getLsbD_append]
  simp [hi]

/-- A word with `z` zero is made of its `op` and `imm` fields (R91). -/
theorem hWord_of_fields {w : BitVec 16} (hz : zField w = 0#4) : hWord (opField w) (immField w) = w := by
  rw [show (hWord (opField w) (immField w)) = opField w ++ zField w ++ immField w by rw [hz]; rfl]
  unfold opField zField immField
  ext i hi
  simp only [BitVec.getElem_append, BitVec.getElem_extractLsb']
  split
  · rw [Nat.zero_add, BitVec.getLsbD_eq_getElem hi]
  · split
    · rw [show 8 + (i - 8) = i by omega, BitVec.getLsbD_eq_getElem hi]
    · rw [show 12 + (i - 8 - 4) = i by omega, BitVec.getLsbD_eq_getElem hi]

/-- A word is made of its `kind`, `a` and `d` fields (R98). -/
theorem bWord_of_fields (w : BitVec 20) : bWord (kindField w) (aField w) (dField w) = w := by
  unfold bWord kindField aField dField
  ext i hi
  simp only [BitVec.getElem_append, BitVec.getElem_extractLsb']
  split
  · rw [Nat.zero_add, BitVec.getLsbD_eq_getElem hi]
  · split
    · rw [show 8 + (i - 8) = i by omega, BitVec.getLsbD_eq_getElem hi]
    · rw [show 16 + (i - 8 - 8) = i by omega, BitVec.getLsbD_eq_getElem hi]

theorem hWord_toNat (op : BitVec 4) (imm : Byte) : (hWord op imm).toNat = op.toNat * 4096 + imm.toNat := by
  have h1 := op.isLt
  have h2 := imm.isLt
  have e1 : imm.toNat < 2 ^ 8 := h2
  simp only [hWord, BitVec.toNat_append, BitVec.toNat_ofNat]
  rw [← Nat.shiftLeft_add_eq_or_of_lt e1, ← Nat.shiftLeft_add_eq_or_of_lt (by decide)]
  simp only [Nat.shiftLeft_eq]
  omega

theorem bWord_toNat (k : BitVec 4) (a d : Byte) :
    (bWord k a d).toNat = k.toNat * 65536 + a.toNat * 256 + d.toNat := by
  have h1 := k.isLt
  have h2 := a.isLt
  have h3 := d.isLt
  simp only [bWord, BitVec.toNat_append]
  rw [← Nat.shiftLeft_add_eq_or_of_lt h3, ← Nat.shiftLeft_add_eq_or_of_lt h2]
  simp only [Nat.shiftLeft_eq]
  omega

/-- Masking a word masks its fields. -/
theorem hWord_and (op : BitVec 4) (imm : Byte) (op' : BitVec 4) (z' : BitVec 4) (imm' : Byte) :
    hWord op imm &&& (op' ++ z' ++ imm') = hWord (op &&& op') (imm &&& imm') := by
  apply BitVec.eq_of_getLsbD_eq
  intro i _
  simp only [hWord, BitVec.getLsbD_and, BitVec.getLsbD_append]
  by_cases h1 : i < 8 <;> by_cases h2 : i - 8 < 4 <;> simp [h1, h2]

theorem bWord_and (k : BitVec 4) (a d : Byte) (k' : BitVec 4) (a' d' : Byte) :
    bWord k a d &&& (k' ++ a' ++ d') = bWord (k &&& k') (a &&& a') (d &&& d') := by
  apply BitVec.eq_of_getLsbD_eq
  intro i _
  simp only [bWord, BitVec.getLsbD_and, BitVec.getLsbD_append]
  by_cases h1 : i < 8 <;> by_cases h2 : i - 8 < 8 <;> simp [h1, h2]

theorem kWord_and (x y : BitVec 1) (d : Byte) (x' y' : BitVec 1) (d' : Byte) :
    kWord x y d &&& (x' ++ y' ++ d') = kWord (x &&& x') (y &&& y') (d &&& d') := by
  apply BitVec.eq_of_getLsbD_eq
  intro i _
  simp only [kWord, BitVec.getLsbD_and, BitVec.getLsbD_append]
  by_cases h1 : i < 8 <;> by_cases h2 : i - 8 < 1 <;> simp [h1, h2]

theorem and_allOnes4 (x : BitVec 4) : x &&& 15#4 = x := by revert x; decide

theorem and_allOnes8 (x : Byte) : x &&& 255#8 = x := by revert x; decide +kernel

/-- Cutting a field out of a masked word masks the field. -/
theorem extract_of_and {n : Nat} {w m p : BitVec n} (h : w &&& m = p) (a b : Nat) :
    w.extractLsb' a b &&& m.extractLsb' a b = p.extractLsb' a b := by
  rw [← h, BitVec.extractLsb'_and]

end Sys2Proof
end

