-- ==== Sys2Proof/Laws/Memory.lean ====
section
/-! SUPPORT. The laws of the byte buffers: a byte written is read back, every other byte stays, and every write keeps
the canonical form. -/

namespace Sys2Proof.Machine

open Sys2Proof

theorem Memory.wfFrom_cons {size lo a : Nat} {b : Byte} {m : Memory} :
    Memory.wfFrom size lo ((a, b) :: m) = true ↔
      lo ≤ a ∧ a < size ∧ b ≠ Memory.unlisted ∧ Memory.wfFrom size (a + 1) m = true := by
  simp [Memory.wfFrom, and_assoc]

theorem Memory.wfFrom_of_le {size lo lo' : Nat} (h : lo' ≤ lo) :
    ∀ {m : Memory}, Memory.wfFrom size lo m = true → Memory.wfFrom size lo' m = true
  | [], _ => rfl
  | (_, _) :: _, hm => by
    rw [Memory.wfFrom_cons] at hm ⊢
    exact ⟨h.trans hm.1, hm.2⟩

/-- Below the first address listed nothing is listed. -/
theorem Memory.read_below {size k : Nat} :
    ∀ {lo : Nat} {m : Memory}, Memory.wfFrom size lo m = true → k < lo → Memory.read m k = Memory.unlisted
  | _, [], _, _ => rfl
  | lo, (a, b) :: m, hm, hk => by
    rw [Memory.wfFrom_cons] at hm
    have ha : a ≠ k := by omega
    simp only [Memory.read, ha, if_false]
    exact Memory.read_below hm.2.2.2 (by omega)

theorem Memory.write_wfFrom {size k : Nat} {v : Byte} (hk : k < size) :
    ∀ {lo : Nat} {m : Memory}, Memory.wfFrom size lo m = true → lo ≤ k →
      Memory.wfFrom size lo (Memory.write m k v) = true
  | lo, [], _, hlo => by
    by_cases hv : v = Memory.unlisted <;> simp [Memory.write, Memory.wfFrom, hv, hlo, hk]
  | lo, (a, b) :: m, hm, hlo => by
    rw [Memory.wfFrom_cons] at hm
    obtain ⟨h1, h2, h3, h4⟩ := hm
    rcases Nat.lt_trichotomy k a with hka | hka | hka
    · by_cases hv : v = Memory.unlisted
      · simp only [Memory.write, hka, if_true, hv, Memory.wfFrom_cons]
        exact ⟨h1, h2, h3, h4⟩
      · simp only [Memory.write, hka, if_true, hv, if_false, Memory.wfFrom_cons]
        exact ⟨hlo, hk, hv, hka, h2, h3, h4⟩
    · subst hka
      by_cases hv : v = Memory.unlisted
      · simp only [Memory.write, lt_irrefl, if_false, if_true, hv]
        exact Memory.wfFrom_of_le (by omega) h4
      · simp only [Memory.write, lt_irrefl, if_false, if_true, hv, Memory.wfFrom_cons]
        exact ⟨hlo, hk, hv, h4⟩
    · have e1 : ¬ k < a := by omega
      have e2 : ¬ k = a := by omega
      simp only [Memory.write, e1, e2, if_false, Memory.wfFrom_cons]
      exact ⟨h1, h2, h3, Memory.write_wfFrom hk h4 (by omega)⟩

/-- A byte written is read back, and no other byte changes. -/
theorem Memory.read_writeFrom {size k j : Nat} {v : Byte} :
    ∀ {lo : Nat} {m : Memory}, Memory.wfFrom size lo m = true → lo ≤ k →
      Memory.read (Memory.write m k v) j = if j = k then v else Memory.read m j
  | lo, [], _, _ => by
    by_cases hj : j = k
    · by_cases hv : v = Memory.unlisted <;> simp [Memory.write, Memory.read, hv, hj]
    · have : k ≠ j := fun h => hj h.symm
      by_cases hv : v = Memory.unlisted <;> simp [Memory.write, Memory.read, hv, hj, this]
  | lo, (a, b) :: m, hm, hlo => by
    have hm0 := hm
    rw [Memory.wfFrom_cons] at hm
    obtain ⟨h1, h2, h3, h4⟩ := hm
    rcases Nat.lt_trichotomy k a with hka | hka | hka
    · by_cases hv : v = Memory.unlisted
      · simp only [Memory.write, hka, if_true, hv]
        by_cases hj : j = k
        · subst hj
          rw [if_pos rfl]
          exact Memory.read_below (lo := a) (by rw [Memory.wfFrom_cons]; exact ⟨le_refl _, h2, h3, h4⟩) hka
        · rw [if_neg hj]
      · simp only [Memory.write, hka, if_true, hv, if_false]
        by_cases hj : j = k
        · subst hj; simp [Memory.read]
        · have : k ≠ j := fun h => hj h.symm
          simp [Memory.read, hj, this]
    · subst hka
      by_cases hv : v = Memory.unlisted
      · simp only [Memory.write, lt_irrefl, if_false, if_true, hv]
        by_cases hj : j = k
        · subst hj
          rw [if_pos rfl]
          exact Memory.read_below h4 (by omega)
        · have : k ≠ j := fun h => hj h.symm
          simp [Memory.read, hj, this]
      · simp only [Memory.write, lt_irrefl, if_false, if_true, hv]
        by_cases hj : j = k
        · subst hj; simp [Memory.read]
        · have : k ≠ j := fun h => hj h.symm
          simp [Memory.read, hj, this]
    · have e1 : ¬ k < a := by omega
      have e2 : ¬ k = a := by omega
      simp only [Memory.write, e1, e2, if_false, Memory.read]
      by_cases hj : a = j
      · have : j ≠ k := by omega
        simp [hj, this]
      · simp only [hj, if_false]
        exact Memory.read_writeFrom h4 (by omega)

theorem Memory.write_wf {size k : Nat} {v : Byte} {m : Memory} (hm : Memory.wf size m = true) (hk : k < size) :
    Memory.wf size (Memory.write m k v) = true :=
  Memory.write_wfFrom hk hm (Nat.zero_le _)

theorem Memory.read_write {size k j : Nat} {v : Byte} {m : Memory} (hm : Memory.wf size m = true) :
    Memory.read (Memory.write m k v) j = if j = k then v else Memory.read m j :=
  Memory.read_writeFrom hm (Nat.zero_le _)

/-- Outside its size a canonical buffer lists nothing. -/
theorem Memory.read_outside {size k : Nat} :
    ∀ {lo : Nat} {m : Memory}, Memory.wfFrom size lo m = true → size ≤ k → Memory.read m k = Memory.unlisted
  | _, [], _, _ => rfl
  | lo, (a, b) :: m, hm, hk => by
    rw [Memory.wfFrom_cons] at hm
    have ha : a ≠ k := by omega
    simp only [Memory.read, ha, if_false]
    exact Memory.read_outside hm.2.2.2 hk

theorem Memory.writeList_wf {size : Nat} :
    ∀ {bs : List Byte} {k : Nat} {m : Memory}, Memory.wf size m = true → k + bs.length ≤ size →
      Memory.wf size (Memory.writeList m k bs) = true
  | [], _, _, hm, _ => hm
  | b :: bs, k, m, hm, hk => by
    simp only [List.length_cons] at hk
    rw [Memory.writeList]
    exact Memory.writeList_wf (Memory.write_wf hm (by omega)) (by omega)

/-- Bytes written to consecutive addresses are read back, and no other byte changes. -/
theorem Memory.read_writeList {size j : Nat} :
    ∀ {bs : List Byte} {k : Nat} {m : Memory}, Memory.wf size m = true → k + bs.length ≤ size →
      Memory.read (Memory.writeList m k bs) j =
        if k ≤ j ∧ j < k + bs.length then bs.getD (j - k) 0 else Memory.read m j
  | [], k, m, _, _ => by
    have : ¬ (k ≤ j ∧ j < k + ([] : List Byte).length) := by simp
    rw [if_neg this]; rfl
  | b :: bs, k, m, hm, hk => by
    simp only [List.length_cons] at hk
    rw [Memory.writeList, Memory.read_writeList (Memory.write_wf hm (by omega)) (by omega), Memory.read_write hm]
    rcases Nat.lt_trichotomy j k with h | h | h
    · have e1 : ¬ (k + 1 ≤ j ∧ j < k + 1 + bs.length) := by omega
      have e2 : ¬ (k ≤ j ∧ j < k + (b :: bs).length) := by omega
      have e3 : j ≠ k := by omega
      rw [if_neg e1, if_neg e2, if_neg e3]
    · subst h
      have e1 : ¬ (j + 1 ≤ j ∧ j < j + 1 + bs.length) := by omega
      have e2 : j ≤ j ∧ j < j + (b :: bs).length := by simp
      rw [if_neg e1, if_pos e2, if_pos rfl]; simp
    · have e3 : j ≠ k := by omega
      by_cases h2 : j < k + 1 + bs.length
      · have e1 : k + 1 ≤ j ∧ j < k + 1 + bs.length := by omega
        have e2 : k ≤ j ∧ j < k + (b :: bs).length := by simp only [List.length_cons]; omega
        rw [if_pos e1, if_pos e2]
        obtain ⟨d, hd⟩ : ∃ d, j - k = d + 1 := ⟨j - k - 1, by omega⟩
        have : j - (k + 1) = d := by omega
        rw [hd, this]; rfl
      · have e1 : ¬ (k + 1 ≤ j ∧ j < k + 1 + bs.length) := by omega
        have e2 : ¬ (k ≤ j ∧ j < k + (b :: bs).length) := by simp only [List.length_cons]; omega
        rw [if_neg e1, if_neg e2, if_neg e3]

/-- Two canonical buffers that read alike are the same data. -/
theorem Memory.ext_read {size : Nat} :
    ∀ {m m' : Memory} {lo : Nat}, Memory.wfFrom size lo m = true → Memory.wfFrom size lo m' = true →
      (∀ k, Memory.read m k = Memory.read m' k) → m = m'
  | [], [], _, _, _, _ => rfl
  | [], (a, b) :: m', lo, _, hm', h => by
    rw [Memory.wfFrom_cons] at hm'
    have := h a
    simp [Memory.read] at this
    exact absurd this.symm hm'.2.2.1
  | (a, b) :: m, [], lo, hm, _, h => by
    rw [Memory.wfFrom_cons] at hm
    have := h a
    simp [Memory.read] at this
    exact absurd this hm.2.2.1
  | (a, b) :: m, (a', b') :: m', lo, hm, hm', h => by
    have hm0 := hm
    have hm0' := hm'
    rw [Memory.wfFrom_cons] at hm hm'
    have haa : a = a' := by
      rcases Nat.lt_trichotomy a a' with hlt | heq | hlt
      · have h1 := h a
        have h2 : Memory.read ((a', b') :: m') a = Memory.unlisted :=
          Memory.read_below (lo := a') (by rw [Memory.wfFrom_cons]; exact ⟨le_refl _, hm'.2⟩) hlt
        rw [h2] at h1
        simp [Memory.read] at h1
        exact absurd h1 hm.2.2.1
      · exact heq
      · have h1 := h a'
        have h2 : Memory.read ((a, b) :: m) a' = Memory.unlisted :=
          Memory.read_below (lo := a) (by rw [Memory.wfFrom_cons]; exact ⟨le_refl _, hm.2⟩) hlt
        rw [h2] at h1
        simp [Memory.read] at h1
        exact absurd h1.symm hm'.2.2.1
    subst haa
    have hbb : b = b' := by simpa [Memory.read] using h a
    subst hbb
    have : m = m' := Memory.ext_read hm.2.2.2 hm'.2.2.2 fun k => by
      by_cases hk : a = k
      · subst hk
        rw [Memory.read_below hm.2.2.2 (by omega), Memory.read_below hm'.2.2.2 (by omega)]
      · simpa [Memory.read, hk] using h k
    rw [this]

/-- The reset buffers are canonical. -/
theorem Memory.wf_nil (size : Nat) : Memory.wf size [] = true := rfl

end Sys2Proof.Machine
end

