-- ==== Sys2Proof/Laws/Ops.lean ====
section
/-! SUPPORT. What the shared operations on answers and events do: where the answers of a command stand, and the event
lists of a table write and of the re-arm pair. -/

namespace Sys2Proof.Machine

open Sys2Proof

/-- An answer byte depends on the answers written out and the command's number only. -/
theorem State.answerAt_congr {s t : State} (ha : t.inp.answers = s.inp.answers) (hc : t.inp.cmdNo = s.inp.cmdNo)
    (k : Nat) : t.answerAt k = s.answerAt k := by
  unfold State.answerAt
  rw [ha, hc]

@[simp] theorem State.answerBytes_length (s : State) (n : Nat) : (s.answerBytes n).length = n := by
  simp [State.answerBytes]

theorem State.answerBytes_getElem? {s : State} {n k : Nat} (h : k < n) :
    (s.answerBytes n)[k]? = some (s.answerAt (s.inp.ansPos + k)) := by
  simp [State.answerBytes, h]

@[simp] theorem State.answerBytes_zero (s : State) : s.answerBytes 0 = [] := rfl

theorem State.answerBytes_one (s : State) : s.answerBytes 1 = [s.nextAnswer] := rfl

/-- The events of a table write (R143). -/
def tableEvents (b : BitVec 1) (es : List CfgEntry) : List BusRecord :=
  es.map fun e => ⟨.wreg e.addr (entryVal b e), []⟩

/-- A table write emits one WREG per entry, in list order, and does nothing else (R143). -/
theorem State.writeTable_eq (b : BitVec 1) : ∀ (es : List CfgEntry) (s : State),
    s.writeTable b es = { s with out := { s.out with trace := s.out.trace ++ tableEvents b es } }
  | [], s => by simp [State.writeTable, tableEvents]
  | e :: es, s => by
    rw [State.writeTable, State.writeTable_eq b es]
    simp [State.perform, tableEvents, answerLen]

/-- The re-arm pair (R130): two strobes, flush first, and `DRV_STATE` is `ARMED`. -/
theorem State.rearm_eq (s : State) :
    s.rearm =
      { s with
        u1 := { s.u1 with drvState := .armed }
        out := { s.out with
          trace := s.out.trace ++ [⟨.strobe s.cfg.strobeFlushRx, []⟩, ⟨.strobe s.cfg.strobeEnterRx, []⟩] } } := by
  simp [State.rearm, State.perform, State.setDrv, answerLen]

@[simp] theorem State.rxBytes_length (s : State) (n : Nat) : (s.rxBytes n).length = n := by
  simp [State.rxBytes]

theorem State.rxBytes_congr {s t : State} {n : Nat}
    (h : ∀ k < n, Memory.read t.u1.rxbuf k = Memory.read s.u1.rxbuf k) : t.rxBytes n = s.rxBytes n := by
  unfold State.rxBytes
  apply List.map_congr_left
  intro k hk
  exact h k (by simpa using hk)

end Sys2Proof.Machine
end

