-- ==== Sys2Proof/Laws/Exec.lean ====
section
/-! SUPPORT. What the shared parts of the meanings do: the end of INIT, the burst of POLL, the two ends of DECODE,
the bytes of a particulate frame and its completion; the cases of a step; and how sequences of commands compose. -/

namespace Sys2Proof.Machine

open Sys2Proof

/-- The next answer bytes depend on the answers written out, the command's number and the answers taken only. -/
theorem State.answerBytes_congr {s t : State} {n : Nat} (ha : t.inp.answers = s.inp.answers)
    (hc : t.inp.cmdNo = s.inp.cmdNo) (hp : t.inp.ansPos = s.inp.ansPos) : t.answerBytes n = s.answerBytes n := by
  unfold State.answerBytes
  rw [hp]
  exact List.map_congr_left fun k _ => State.answerAt_congr ha hc _

/-- POLL's burst of `n` bytes: the answers stand in RXBUF and in the event list, and the re-arm pair follows. -/
theorem pollDrain_eq (n : Fin 81) (s : State) :
    pollDrain n s =
      { s with
        u1 :=
          { s.u1 with
            drvState := .armed
            rxbuf := Memory.writeList s.u1.rxbuf 0 (s.answerBytes n.val)
            rxlen := n }
        inp := { s.inp with ansPos := s.inp.ansPos + n.val }
        out :=
          { rsp := some ⟨.ok, BitVec.ofNat 32 n.val⟩
            trace := s.out.trace ++
              [⟨.rburst s.cfg.fifoAddr (BitVec.ofNat 8 n.val), s.answerBytes n.val⟩,
               ⟨.strobe s.cfg.strobeFlushRx, []⟩, ⟨.strobe s.cfg.strobeEnterRx, []⟩] } } := by
  have hn : n.val % 256 = n.val := Nat.mod_eq_of_lt (by omega)
  have hd : (s.setDrv .draining).answerBytes n.val = s.answerBytes n.val :=
    State.answerBytes_congr rfl rfl rfl
  simp [pollDrain, State.rearm_eq, State.respond, State.setRxLen, State.storeRx, State.perform, answerLen, hn, hd]

/-- INIT after a probe that matched, the table already written. -/
theorem initFinish_match {b : BitVec 1} {p : Byte} {s : State} (hp : p = s.cfg.probeExpect)
    (hf : s.cfg.probeFirst = false) :
    initFinish b p s =
      { s with
        u1 := { s.u1 with chipOk := true, drvState := .armed }
        out :=
          { rsp := some ⟨.ok, p.zeroExtend 32⟩
            trace := s.out.trace ++ [⟨.strobe s.cfg.strobeFlushRx, []⟩, ⟨.strobe s.cfg.strobeEnterRx, []⟩] } } := by
  simp [initFinish, hp, hf, State.rearm_eq, State.respond, State.setChipOk]

/-- INIT after a probe that matched, with the table still to write. -/
theorem initFinish_match_probeFirst {b : BitVec 1} {p : Byte} {s : State} (hp : p = s.cfg.probeExpect)
    (hf : s.cfg.probeFirst = true) :
    initFinish b p s =
      { s with
        u1 := { s.u1 with chipOk := true, drvState := .armed }
        out :=
          { rsp := some ⟨.ok, p.zeroExtend 32⟩
            trace := s.out.trace ++ tableEvents b s.cfg.table ++
              [⟨.strobe s.cfg.strobeFlushRx, []⟩, ⟨.strobe s.cfg.strobeEnterRx, []⟩] } } := by
  simp [initFinish, hp, hf, State.rearm_eq, State.respond, State.setChipOk, State.writeTable_eq]

/-- INIT after a probe that did not match. -/
theorem initFinish_mismatch {b : BitVec 1} {p : Byte} {s : State} (hp : p ≠ s.cfg.probeExpect) :
    initFinish b p s =
      { s with
        u1 := { s.u1 with chipOk := false, drvState := .idle }
        out := { s.out with rsp := some ⟨.eChipNotDetected, p.zeroExtend 32⟩ } } := by
  rw [initFinish, if_neg hp]
  rfl

/-- DECODE past the length check is one comparison of the CRC with the last byte. -/
theorem execDecode_long {s : State} (h : 17 ≤ s.u1.rxlen.val) :
    execDecode s =
      let n := s.u1.rxlen.val
      let c := crc8 (s.rxBytes (n - 1))
      let s1 : State := { s with u2 := { s.u2 with crc8 := c } }
      .next
        (if c = Memory.read s.u1.rxbuf (n - 1) then decodeAccept n s1 else decodeReject .eWxChecksum s1) := by
  have h17 : ¬ s.u1.rxlen.val < 17 := by omega
  simp only [execDecode, h17, if_false, State.crcClr_crcBytes]

/-- A byte that is not the frame's last (R217). -/
theorem pushAcc_below {d : Byte} {s : State} (h : s.u3.cur.val < 31) :
    pushAcc d s =
      { s with
        u3 :=
          { s.u3 with
            syncState := .acc
            cur := ⟨s.u3.cur.val + 1, by omega⟩
            fbuf := Memory.write s.u3.fbuf s.u3.cur.val d }
        sum16 := if s.u3.cur.val < 30 then s.sum16 + d.zeroExtend 16 else s.sum16
        out := { s.out with rsp := some ⟨.noData, 0⟩ } } := by
  by_cases h30 : s.u3.cur.val < 30 <;>
    simp [pushAcc, h, h30, State.storeFrame, State.driveSum, sumNext, State.setSync, State.respond]

/-- The frame's last byte (R218). -/
theorem pushAcc_last {d : Byte} {s : State} (h : s.u3.cur.val = 31) :
    pushAcc d s = frameComplete (s.storeFrame 31 d) := by
  simp [pushAcc, h]

/-- A complete frame whose sum is its last two bytes (R218, R220 to R223). -/
theorem frameComplete_valid {s : State} (h : s.sum16 = be16 s.u3.fbuf 30) :
    frameComplete s =
      { s with
        u3 :=
          { s.u3 with
            syncState := .first
            cur := 0
            pmLast := Code.byte .ok
            reading := pmReadingOf s.cfg s.u3.fbuf s.sampleNow }
        sum16 := 0#16
        out := { s.out with rsp := some ⟨.ok, 0⟩ } } := by
  rw [frameComplete, if_pos h]
  rfl

/-- A complete frame whose sum is not its last two bytes (R218). -/
theorem frameComplete_invalid {s : State} (h : s.sum16 ≠ be16 s.u3.fbuf 30) :
    frameComplete s =
      { s with
        u3 := { s.u3 with syncState := .first, cur := 0, pmLast := Code.byte .ePmChecksum }
        sum16 := 0#16
        out := { s.out with rsp := some ⟨.ePmChecksum, 0⟩ } } := by
  rw [frameComplete, if_neg h]
  rfl

/-- Everything a step that goes on can be: idle, one instruction, or a reserved command answered. -/
theorem step_cases {s t : State} (h : step s = .next t) :
    (s.inp.requests = [] ∧ t = s) ∨
    (∃ r rest i, s.inp.requests = r :: rest ∧ decode r.word = .instr i ∧ exec i (s.accept r rest) = .next t) ∨
    (∃ r rest, s.inp.requests = r :: rest ∧ decode r.word = .rejected .reservedCommand ∧
      t = (s.accept r rest).respond .eIllegalCmd 0) := by
  unfold step at h
  split at h
  · next hr =>
    cases h
    exact .inl ⟨hr, rfl⟩
  · next r rest hr =>
    split at h
    · next i hi => exact .inr (.inl ⟨r, rest, i, hr, hi, h⟩)
    · next e he =>
      cases e <;> simp [rejectWord] at h
      exact .inr (.inr ⟨r, rest, hr, he, h.symm⟩)

/-- A sequence of instructions is run part by part. -/
theorem runInstrs_append : ∀ {xs ys : List Instr} {s t : State}, runInstrs xs s = .next t →
    runInstrs (xs ++ ys) s = runInstrs ys t
  | [], _, _, _, h => by cases h; rfl
  | i :: xs, ys, s, t, h => by
    simp only [runInstrs, List.cons_append] at h ⊢
    cases he : exec i s with
    | next u =>
      simp only [he] at h ⊢
      exact runInstrs_append h
    | fault r => simp [he] at h
    | refused r => simp [he] at h

/-- The responses of a sequence are those of its parts. -/
theorem runRsps_append : ∀ {xs ys : List Instr} {s t : State}, runInstrs xs s = .next t →
    runRsps (xs ++ ys) s = runRsps xs s ++ runRsps ys t
  | [], _, _, _, h => by cases h; rfl
  | i :: xs, ys, s, t, h => by
    simp only [runInstrs, List.cons_append, runRsps] at h ⊢
    cases he : exec i s with
    | next u =>
      simp only [he] at h ⊢
      rw [runRsps_append h, List.append_assoc]
    | fault r => simp [he] at h
    | refused r => simp [he] at h

end Sys2Proof.Machine
end

