-- ==== Sys2Proof/Laws/Fields.lean ====
section
/-! SUPPORT. The fields of the two frames as plain numbers: big-endian concatenation, the temperature, the speeds, the
direction, the offsets of a well-formed configuration, and the running byte sum. -/

namespace Sys2Proof.Machine

open Sys2Proof

/-- `{a, b}` as a number: `a` counts in units of two to the width of `b` (R9). -/
theorem append_toNat {m n : Nat} (x : BitVec m) (y : BitVec n) : (x ++ y).toNat = x.toNat * 2 ^ n + y.toNat := by
  rw [BitVec.toNat_append, ← Nat.shiftLeft_add_eq_or_of_lt y.isLt, Nat.shiftLeft_eq]

theorem be16_toNat (m : Memory) (o : Nat) :
    (be16 m o).toNat = (Memory.read m o).toNat * 256 + (Memory.read m (o + 1)).toNat := by
  simp only [be16, append_toNat, Nat.reducePow]

theorem be24_toNat (m : Memory) (o : Nat) :
    (be24 m o).toNat =
      (Memory.read m o).toNat * 65536 + (Memory.read m (o + 1)).toNat * 256 + (Memory.read m (o + 2)).toNat := by
  simp only [be24, append_toNat, Nat.reducePow]
  omega

theorem be32_toNat (m : Memory) (o : Nat) :
    (be32 m o).toNat =
      (Memory.read m o).toNat * 16777216 + (Memory.read m (o + 1)).toNat * 65536 +
        (Memory.read m (o + 2)).toNat * 256 + (Memory.read m (o + 3)).toNat := by
  simp only [be32, append_toNat, Nat.reducePow]
  omega

/-- The temperature is the 12-bit raw value less 400, as a signed number (R187). -/
theorem wxTempOf_toInt (b5 b6 : Byte) : (wxTempOf b5 b6).toInt = (b5.toNat % 16 * 256 + b6.toNat : Nat) - 400 := by
  have hx : (b5.extractLsb' 0 4 ++ b6 : BitVec 12).toNat = b5.toNat % 16 * 256 + b6.toNat := by
    rw [append_toNat]
    simp
  unfold wxTempOf
  rw [← hx]
  generalize (b5.extractLsb' 0 4 ++ b6 : BitVec 12) = v
  have hlt := v.isLt
  have h13 : v.toNat % 2 ^ 13 = v.toNat := Nat.mod_eq_of_lt (by omega)
  rw [BitVec.toInt_eq_toNat_cond]
  simp only [BitVec.zeroExtend, BitVec.toNat_sub, BitVec.toNat_setWidth, h13]
  simp
  split <;> omega

/-- A speed is the byte times 36 (R192). -/
theorem wxSpeedOf_toNat (b : Byte) : (wxSpeedOf b).toNat = b.toNat * 36 := by
  have := b.isLt
  simp [wxSpeedOf]
  omega

/-- A direction above 360 becomes 0 (R189). -/
theorem wxDirOf_toNat (d : BitVec 16) : (wxDirOf d).toNat = if d.toNat ≤ 360 then d.toNat else 0 := by
  unfold wxDirOf
  split
  · rw [if_neg (by omega)]
    rfl
  · rw [if_pos (by omega)]
    simp
    omega

/-- A field at a well-formed offset lies in the summed field data (R8). -/
theorem fieldOffsetWf_bounds {o : Nat} (h : fieldOffsetWf o = true) : 2 ≤ o ∧ o + 1 ≤ 29 := by
  simp [fieldOffsetWf] at h
  omega

theorem byteSum_succ (m : Memory) (n : Nat) :
    byteSum m (n + 1) = byteSum m n + (Memory.read m n).setWidth 16 := by
  apply BitVec.eq_of_toNat_eq
  simp [byteSum, List.range_succ]

/-- The sum of the low `n` bytes sees only those bytes. -/
theorem byteSum_congr {m m' : Memory} {n : Nat} (h : ∀ k < n, Memory.read m' k = Memory.read m k) :
    byteSum m' n = byteSum m n := by
  unfold byteSum
  congr 2
  apply List.map_congr_left
  intro k hk
  rw [h k (by simpa using hk)]

end Sys2Proof.Machine
end

