-- ==== Sys2Proof/Laws/PerInstr.lean ====
section
/-! SUPPORT. The family `RowWord`: every instruction's encoded word stands at the port of its format and matches one
row of that format's opcode table (R92, R99, R101). -/

namespace Sys2Proof.Laws

open Sys2Proof

def RowWord.Statement (i : Instr) : Prop :=
  match encode i with
  | .host w => i.isHost = true ∧ ∃ r ∈ hostRows, r.matches w = true
  | .bus w => i.isHost = false ∧ ∃ r ∈ busRows, r.matches w = true
  | .sum w => i.isHost = false ∧ ∃ r ∈ kRows, r.matches w = true
  | .crc w => i.isHost = false ∧ ∃ r ∈ kRows, r.matches w = true

theorem hWord_row (op : BitVec 4) (imm : Byte) : hWord op imm &&& 0xFF00#16 = hWord op 0#8 := by
  have h := hWord_and op imm 15#4 15#4 0#8
  rw [show (15#4 ++ 15#4 ++ 0#8 : BitVec 16) = 0xFF00#16 by decide] at h
  simpa [and_allOnes4] using h

theorem bWord_row (k : BitVec 4) (a d : Byte) : bWord k a d &&& 0xF0000#20 = bWord k 0#8 0#8 := by
  have h := bWord_and k a d 15#4 0#8 0#8
  rw [show (15#4 ++ 0#8 ++ 0#8 : BitVec 20) = 0xF0000#20 by decide] at h
  simpa [and_allOnes4] using h

theorem bWord_row_d (k : BitVec 4) (a d : Byte) : bWord k a d &&& 0xF00FF#20 = bWord k 0#8 d := by
  have h := bWord_and k a d 15#4 0#8 255#8
  rw [show (15#4 ++ 0#8 ++ 255#8 : BitVec 20) = 0xF00FF#20 by decide] at h
  simpa [and_allOnes4, and_allOnes8] using h

theorem bWord_row_a (k : BitVec 4) (a d : Byte) : bWord k a d &&& 0xFFF00#20 = bWord k a 0#8 := by
  have h := bWord_and k a d 15#4 255#8 0#8
  rw [show (15#4 ++ 255#8 ++ 0#8 : BitVec 20) = 0xFFF00#20 by decide] at h
  simpa [and_allOnes4, and_allOnes8] using h

theorem kWord_row (x y : BitVec 1) (d : Byte) : kWord x y d &&& 0x300#10 = kWord x y 0#8 := by
  have h := kWord_and x y d 1#1 1#1 0#8
  rw [show (1#1 ++ 1#1 ++ 0#8 : BitVec 10) = 0x300#10 by decide] at h
  have e : ∀ z : BitVec 1, z &&& 1#1 = z := by decide
  simpa [e] using h

theorem RowWord.init (b : BitVec 1) : RowWord.Statement (.init b) := by
  refine ⟨rfl, ⟨0x1000#16, 0xFFFE#16⟩, by decide, ?_⟩
  revert b
  decide

theorem RowWord.poll : RowWord.Statement .poll :=
  ⟨rfl, ⟨0x2000#16, 0xFFFF#16⟩, by decide, by decide⟩

theorem RowWord.decode : RowWord.Statement .decode :=
  ⟨rfl, ⟨0x3000#16, 0xFFFF#16⟩, by decide, by decide⟩

theorem RowWord.push (d : Byte) : RowWord.Statement (.push d) := by
  refine ⟨rfl, ⟨0x4000#16, 0xFF00#16⟩, by decide, ?_⟩
  rw [Row.matches, beq_iff_eq, hWord_row]
  decide

theorem RowWord.rd (r : Byte) : RowWord.Statement (.rd r) := by
  refine ⟨rfl, ⟨0x5000#16, 0xFF00#16⟩, by decide, ?_⟩
  rw [Row.matches, beq_iff_eq, hWord_row]
  decide

theorem RowWord.rdbuf (i : Byte) : RowWord.Statement (.rdbuf i) := by
  refine ⟨rfl, ⟨0x6000#16, 0xFF00#16⟩, by decide, ?_⟩
  rw [Row.matches, beq_iff_eq, hWord_row]
  decide

theorem RowWord.ldbuf (d : Byte) : RowWord.Statement (.ldbuf d) := by
  refine ⟨rfl, ⟨0x7000#16, 0xFF00#16⟩, by decide, ?_⟩
  rw [Row.matches, beq_iff_eq, hWord_row]
  decide

theorem RowWord.clrbuf : RowWord.Statement .clrbuf :=
  ⟨rfl, ⟨0x8000#16, 0xFFFF#16⟩, by decide, by decide⟩

theorem RowWord.wreg (a v : Byte) : RowWord.Statement (.wreg a v) := by
  refine ⟨rfl, ⟨0x10000#20, 0xF0000#20⟩, by decide, ?_⟩
  rw [Row.matches, beq_iff_eq, bWord_row]
  decide

theorem RowWord.rreg (a : Byte) : RowWord.Statement (.rreg a) := by
  refine ⟨rfl, ⟨0x20000#20, 0xF00FF#20⟩, by decide, ?_⟩
  rw [Row.matches, beq_iff_eq, bWord_row_d]
  decide

theorem RowWord.rburst (a n : Byte) : RowWord.Statement (.rburst a n) := by
  refine ⟨rfl, ⟨0x30000#20, 0xF0000#20⟩, by decide, ?_⟩
  rw [Row.matches, beq_iff_eq, bWord_row]
  decide

theorem RowWord.strobe (c : Byte) : RowWord.Statement (.strobe c) := by
  refine ⟨rfl, ⟨0x40000#20, 0xF00FF#20⟩, by decide, ?_⟩
  rw [Row.matches, beq_iff_eq, bWord_row_d]
  decide

theorem RowWord.wait (ms : Byte) : RowWord.Statement (.wait ms) := by
  refine ⟨rfl, ⟨0x80000#20, 0xFFF00#20⟩, by decide, ?_⟩
  rw [Row.matches, beq_iff_eq, bWord_row_a]
  decide

theorem RowWord.sumHold : RowWord.Statement .sumHold :=
  ⟨rfl, ⟨0x000#10, 0x300#10⟩, by decide, by decide⟩

theorem RowWord.sumAdd (d : Byte) : RowWord.Statement (.sumAdd d) := by
  refine ⟨rfl, ⟨0x100#10, 0x300#10⟩, by decide, ?_⟩
  rw [Row.matches, beq_iff_eq, kWord_row]
  decide

theorem RowWord.sumClr : RowWord.Statement .sumClr :=
  ⟨rfl, ⟨0x200#10, 0x300#10⟩, by decide, by decide⟩

theorem RowWord.sumLoad (d : Byte) : RowWord.Statement (.sumLoad d) := by
  refine ⟨rfl, ⟨0x300#10, 0x300#10⟩, by decide, ?_⟩
  rw [Row.matches, beq_iff_eq, kWord_row]
  decide

theorem RowWord.crcHold : RowWord.Statement .crcHold :=
  ⟨rfl, ⟨0x000#10, 0x300#10⟩, by decide, by decide⟩

theorem RowWord.crcByte (d : Byte) : RowWord.Statement (.crcByte d) := by
  refine ⟨rfl, ⟨0x100#10, 0x300#10⟩, by decide, ?_⟩
  rw [Row.matches, beq_iff_eq, kWord_row]
  decide

theorem RowWord.crcClr : RowWord.Statement .crcClr :=
  ⟨rfl, ⟨0x200#10, 0x300#10⟩, by decide, by decide⟩

theorem RowWord.crcLoad (d : Byte) : RowWord.Statement (.crcLoad d) := by
  refine ⟨rfl, ⟨0x300#10, 0x300#10⟩, by decide, ?_⟩
  rw [Row.matches, beq_iff_eq, kWord_row]
  decide

end Sys2Proof.Laws
end

