-- ==== Sys2Proof/Machine/Text.lean ====
section
/-! DEFINITION. The textual syntax of R110: commands and events in upper case with decimal operands, implemented
registers by name, and the trace lines `> EVENT`, `< bytes`, `= (CODE, data)`. The micro-operations, which R110 does
not list, are written the same way. Nothing of the machine reads it. -/

namespace Sys2Proof.Machine

open Sys2Proof

/-- A byte in decimal. -/
def byteText (b : Byte) : String := toString b.toNat

/-- A byte as two hexadecimal digits. -/
def hexText (b : Byte) : String :=
  String.ofList ((if b.toNat < 16 then ['0'] else []) ++ (Nat.toDigits 16 b.toNat).map Char.toUpper)

/-- The name of a register (R40). -/
def regName : HostReg → String
  | .status => "STATUS"
  | .rxlen => "RXLEN"
  | .wxLast => "WX_LAST"
  | .pmLast => "PM_LAST"
  | .cur => "CUR"
  | .sum16 => "SUM16"
  | .crc8 => "CRC8"
  | .wxTemp => "WX_TEMP"
  | .wxHum => "WX_HUM"
  | .wxWdir => "WX_WDIR"
  | .wxWspd => "WX_WSPD"
  | .wxGust => "WX_GUST"
  | .wxRain => "WX_RAIN"
  | .wxUv => "WX_UV"
  | .wxLux => "WX_LUX"
  | .wxBattOk => "WX_BATT_OK"
  | .wxTime => "WX_TIME"
  | .pmMass0 => "PM_MASS0"
  | .pmMass1 => "PM_MASS1"
  | .pmMass2 => "PM_MASS2"
  | .pmCnt0 => "PM_CNT0"
  | .pmCnt1 => "PM_CNT1"
  | .pmCnt2 => "PM_CNT2"
  | .pmCnt3 => "PM_CNT3"
  | .pmCnt4 => "PM_CNT4"
  | .pmCnt5 => "PM_CNT5"
  | .pmTime => "PM_TIME"

/-- The operand of RD: the register's name, or the number of an unimplemented one. -/
def regText (r : Byte) : String :=
  match regOf r with
  | some g => regName g
  | none => byteText r

/-- A bus event in the syntax of R99. -/
def eventText : BusEvent → String
  | .wreg a v => "WREG " ++ byteText a ++ ", " ++ byteText v
  | .rreg a => "RREG " ++ byteText a
  | .rburst a n => "RBURST " ++ byteText a ++ ", " ++ byteText n
  | .strobe c => "STROBE " ++ byteText c
  | .wait ms => "WAIT " ++ byteText ms

/-- An instruction in the syntax of R110. -/
def instrText : Instr → String
  | .init b => "INIT " ++ toString b.toNat
  | .poll => "POLL"
  | .decode => "DECODE"
  | .push d => "PUSH " ++ byteText d
  | .rd r => "RD " ++ regText r
  | .rdbuf i => "RDBUF " ++ byteText i
  | .ldbuf d => "LDBUF " ++ byteText d
  | .clrbuf => "CLRBUF"
  | .wreg a v => eventText (.wreg a v)
  | .rreg a => eventText (.rreg a)
  | .rburst a n => eventText (.rburst a n)
  | .strobe c => eventText (.strobe c)
  | .wait ms => eventText (.wait ms)
  | .sumHold => "SUM_HOLD"
  | .sumAdd d => "SUM_ADD " ++ byteText d
  | .sumClr => "SUM_CLR"
  | .sumLoad d => "SUM_LOAD " ++ byteText d
  | .crcHold => "CRC_HOLD"
  | .crcByte d => "CRC_BYTE " ++ byteText d
  | .crcClr => "CRC_CLR"
  | .crcLoad d => "CRC_LOAD " ++ byteText d

/-- The trace lines of one event: the event, and its answer if it has one. -/
def recordText (e : BusRecord) : List String :=
  ("> " ++ eventText e.event) ::
    (if e.answer.isEmpty then [] else ["< " ++ String.intercalate " " (e.answer.map hexText)])

/-- The response line, code and data in decimal. -/
def rspText (r : Rsp) : String := "= (" ++ byteText r.code.byte ++ ", " ++ toString r.data.toNat ++ ")"

/-- The trace of the last command. -/
def outText (o : Outputs) : List String :=
  (o.trace.map recordText).flatten ++ o.rsp.toList.map rspText

end Sys2Proof.Machine
end

