-- ==== Sys2Proof/Tests/Slice0.lean ====
section
/-! SUPPORT. Tests and witnesses. Expected results are the vectors of spec/95_test_vectors.md (named in each docstring)
or words written out from the tables of spec/30_encoding.md. A theorem `test_…` checks a result; a theorem `witness_…`
shows that the hypotheses of the statement it is named after can be met, clause by clause, at the edges of their
ranges. -/

namespace Sys2Proof.Tests

open Sys2Proof Sys2Proof.Machine

-- One theorem at a time: many closed evaluations at once ask for more threads than the check allows.
set_option Elab.async false

/-! ### Small states -/

/-- The toy configuration `TB` of 95_test_vectors.md. -/
def cfgTB : Cfg :=
  { table := [⟨0x01#8, 0xA1#8, 0xB1#8⟩, ⟨0x02#8, 0xA2#8, 0xB2#8⟩, ⟨0x03#8, 0xA3#8, 0xB3#8⟩, ⟨0x04#8, 0x55#8, 0x55#8⟩]
    probeAddr := 0x05#8, probeExpect := 0x5A#8, occAddr := 0x20#8, fifoAddr := 0x21#8
    strobeFlushRx := 0x30#8, strobeEnterRx := 0x31#8, battLowBit := 0 }

/-- Reset, with `TB`. -/
def tb : State := { State.reset with cfg := cfgTB }

/-- Reset, with `TB` and `PROBE_FIRST`. -/
def tbProbeFirst : State := { State.reset with cfg := { cfgTB with probeFirst := true } }

/-- The environment will answer these bytes. -/
def ans (bs : List Byte) (s : State) : State := { s with inp := { s.inp with answers := bs } }

/-- The `now` input. -/
def at_ (n : Nat) (s : State) : State := { s with inp := { s.inp with now := n } }

/-- These bytes stand in RXBUF; `RXLEN` is their number. -/
def buf (bs : List Byte) (s : State) : State :=
  { s with u1 := { s.u1 with rxbuf := Memory.writeList [] 0 bs, rxlen := Fin.ofNat 81 bs.length } }

/-- A word stands at a port. -/
def ask (w : PortWord) (s : State) : State := s.pushRequest ⟨w, some 5000, []⟩

/-- The first `n` bytes of a frame have been pushed. -/
def frameAt (bs : List Byte) (s : State) : State :=
  { s with
    u3 := { s.u3 with
      syncState := if bs.length = 0 then .first else if bs.length = 1 then .second else .acc
      cur := Fin.ofNat 32 bs.length
      fbuf := Memory.writeList [] 0 bs }
    sum16 := byteSum (Memory.writeList [] 0 bs) (min bs.length 30) }

/-- The state an instruction goes on in. -/
def go (i : Instr) (s : State) : State := (nextState (exec i s)).getD s

def rsp (c : Code) (d : Word32) : Option Rsp := some ⟨c, d⟩

/-- `FIX20` of 95_test_vectors.md. -/
def fix20 : List Byte :=
  [0x24#8, 0x12#8, 0x34#8, 0x56#8, 0x00#8, 0x01#8, 0x94#8, 0x32#8, 0x00#8, 0x2D#8] ++
  [0x0A#8, 0x14#8, 0x00#8, 0x00#8, 0x64#8, 0x05#8, 0x00#8, 0x00#8, 0x01#8, 0x2C#8]

/-- The header and field data of `PMF` of 95_test_vectors.md: its first 30 bytes. -/
def pmf30 : List Byte :=
  [0x42#8, 0x4D#8, 0x00#8, 0x1C#8, 0x00#8, 0x06#8, 0x00#8, 0x09#8, 0x00#8, 0x0B#8] ++
  [0x00#8, 0x05#8, 0x00#8, 0x08#8, 0x00#8, 0x0A#8, 0x03#8, 0xE8#8, 0x01#8, 0x2C#8] ++
  [0x00#8, 0x64#8, 0x00#8, 0x0A#8, 0x00#8, 0x03#8, 0x00#8, 0x01#8, 0x97#8, 0x00#8]

/-! ### What WellFormed refuses -/

theorem test_wf_rburst_empty : (Instr.rburst 0x21#8 0#8).wf = false := by decide
theorem test_wf_rburst_81 : (Instr.rburst 0x21#8 81#8).wf = false := by decide
theorem test_wf_rburst_edges : (Instr.rburst 0x21#8 1#8).wf = true ∧ (Instr.rburst 0x21#8 80#8).wf = true := by decide
theorem test_wf_cfg : cfgTB.wf = true := by decide
theorem test_wf_cfg_table : ({ cfgTB with table := cfgTB.table ++ [⟨6#8, 1#8, 2#8⟩] } : Cfg).wf = false := by decide
theorem test_wf_cfg_ovf_zero : ({ cfgTB with occOvfMask := 0#8 } : Cfg).wf = false := by decide
theorem test_wf_cfg_masks_overlap : ({ cfgTB with occOvfMask := 0xC0#8 } : Cfg).wf = false := by decide
theorem test_wf_cfg_cnt_zero : ({ cfgTB with occCntMask := 0#8 } : Cfg).wf = false := by decide
theorem test_wf_cfg_cnt_gap : ({ cfgTB with occCntMask := 0x5F#8 } : Cfg).wf = false := by decide
theorem test_wf_cfg_odd_offset : ({ cfgTB with pmMassOff := #v[10, 13, 14] } : Cfg).wf = false := by decide
theorem test_wf_cfg_low_offset : ({ cfgTB with pmMassOff := #v[0, 12, 14] } : Cfg).wf = false := by decide
theorem test_wf_cfg_high_offset : ({ cfgTB with pmCntOff := #v[16, 18, 20, 22, 24, 30] } : Cfg).wf = false := by decide
theorem test_wf_cfg_strobes : ({ cfgTB with strobeEnterRx := 0x30#8 } : Cfg).wf = false := by decide

/-! ### Decoding: words written out from R91 and R92, R98 and R99, R100 and R101 -/

theorem test_decode_init : decode (.host 0b0001000000000001#16) = .instr (.init 1#1) := by decide
theorem test_decode_poll : decode (.host 0b0010000000000000#16) = .instr .poll := by decide
theorem test_decode_decode : decode (.host 0b0011000000000000#16) = .instr .decode := by decide
theorem test_decode_push : decode (.host 0b0100000001000010#16) = .instr (.push 0x42#8) := by decide
theorem test_decode_rd : decode (.host 0b0101000000010000#16) = .instr (.rd 0x10#8) := by decide
theorem test_decode_rdbuf : decode (.host 0b0110000001001111#16) = .instr (.rdbuf 79#8) := by decide
theorem test_decode_ldbuf : decode (.host 0b0111000000100100#16) = .instr (.ldbuf 0x24#8) := by decide
theorem test_decode_clrbuf : decode (.host 0b1000000000000000#16) = .instr .clrbuf := by decide
theorem test_decode_wreg : decode (.bus 0b00010000010001010101#20) = .instr (.wreg 0x04#8 0x55#8) := by decide
theorem test_decode_rreg : decode (.bus 0b00100010000000000000#20) = .instr (.rreg 0x20#8) := by decide
theorem test_decode_rburst : decode (.bus 0b00110010000100010101#20) = .instr (.rburst 0x21#8 21#8) := by decide
theorem test_decode_strobe : decode (.bus 0b01000011000000000000#20) = .instr (.strobe 0x30#8) := by decide
theorem test_decode_wait : decode (.bus 0b10000000000000001010#20) = .instr (.wait 10#8) := by decide
theorem test_decode_sum : decode (.sum 0b0000001111#10) = .instr .sumHold ∧
    decode (.sum 0b0101001101#10) = .instr (.sumAdd 0x4D#8) ∧ decode (.sum 0b1000001111#10) = .instr .sumClr ∧
    decode (.sum 0b1101000010#10) = .instr (.sumLoad 0x42#8) := by decide
theorem test_decode_crc : decode (.crc 0b0000001111#10) = .instr .crcHold ∧
    decode (.crc 0b0100100100#10) = .instr (.crcByte 0x24#8) ∧ decode (.crc 0b1000001111#10) = .instr .crcClr ∧
    decode (.crc 0b1100000001#10) = .instr (.crcLoad 0x01#8) := by decide
/-- H13. -/
theorem test_decode_reserved :
    ([0x0000#16, 0xFFFF#16, 0x1002#16, 0x1100#16, 0x2001#16, 0x3001#16, 0x4100#16, 0x8001#16, 0x9000#16,
      0xF000#16].all fun w => decode (.host w) = .rejected .reservedCommand) = true := by decide
theorem test_decode_table_word : decodeTableWord 16 0x4042 = some (.push 0x42#8) ∧
    decodeTableWord 24 0x32115 = some (.rburst 0x21#8 21#8) ∧ decodeTableWord 16 0x342 = some (.sumLoad 0x42#8) ∧
    decodeTableWord 24 0x00000 = none := by decide

/-! ### One step each -/

/-- I1: events, response and STATUS of a successful INIT. -/
theorem test_init_ok : let t := go (.init 0#1) (ans [0x5A#8] tb)
    t.out.rsp = rsp .ok 0x5A#32 ∧ t.out.trace.map (·.event.word) =
      [0x101A1#20, 0x102A2#20, 0x103A3#20, 0x10455#20, 0x20500#20, 0x43000#20, 0x43100#20] ∧
    statusWord t = 0x21#32 := by decide +kernel
/-- I3 and I6: the probe fails, after the table and before it. -/
theorem test_init_fails : let t := go (.init 1#1) (ans [0x00#8] tb)
    let u := go (.init 0#1) (ans [0xFF#8] tbProbeFirst)
    t.out.rsp = rsp .eChipNotDetected 0 ∧ statusWord t = 0x10#32 ∧
    u.out.rsp = rsp .eChipNotDetected 0xFF#32 ∧ u.out.trace.map (·.event.word) = [0x20500#20] := by decide +kernel
/-- O7: a packet of two bytes. -/
theorem test_poll_packet : let t := go .poll (ans [0x03#8, 0x02#8, 0xDE#8, 0xAD#8] (buf [1#8, 2#8, 3#8, 4#8, 5#8] tb))
    t.out.rsp = rsp .ok 2#32 ∧ t.u1.rxlen.val = 2 ∧ Memory.read t.u1.rxbuf 1 = 0xAD#8 ∧
    t.out.trace.map (·.event.word) = [0x22000#20, 0x8000A#20, 0x22000#20, 0x32102#20, 0x43000#20, 0x43100#20] := by
  decide +kernel
/-- O6: overflow on the second read. -/
theorem test_poll_overflow : let t := go .poll (ans [0x03#8, 0x85#8] (buf [1#8, 2#8, 3#8, 4#8, 5#8] tb))
    t.out.rsp = rsp .noData 0 ∧ t.u1.rxlen.val = 0 ∧ t.u1.drvState = .armed ∧
    t.out.trace.map (·.event.word) = [0x22000#20, 0x8000A#20, 0x22000#20, 0x43000#20, 0x43100#20] := by
  decide +kernel
/-- W1. -/
theorem test_decode_w1 : let t := go .decode (at_ 5000 (buf (fix20 ++ [0x80#8]) tb))
    t.out.rsp = rsp .ok 0 ∧ t.u2.crc8 = 0x80#8 ∧ t.u1.rxlen.val = 0 ∧
    t.u2.reading = ⟨true, 4, 50, 45, 360, 720, 100, 5, 300, true, 5000⟩ := by decide +kernel
/-- W4: seventeen zero bytes are accepted, at -40.0 degrees, with the family warning. -/
theorem test_decode_w4 : let t := go .decode (buf (List.replicate 17 0#8) tb)
    t.out.rsp = rsp .ok 1#32 ∧ regValue t .wxTemp = 0xFFFFFE70#32 ∧ statusWord t = 0x0000000A#32 := by decide +kernel
/-- S1, index 31. -/
theorem test_push_completes : let t := go (.push 0xFD#8) (at_ 2031 (frameAt (pmf30 ++ [0x02#8]) tb))
    t.out.rsp = rsp .ok 0 ∧ t.u3.reading = ⟨true, #v[5, 8, 10], #v[1000, 300, 100, 10, 3, 1], 2031⟩ ∧
    t.u3.cur.val = 0 ∧ t.sum16 = 0 ∧ statusWord t = 0x00000004#32 := by decide +kernel
/-- P3, index 2: a 0x42 in place of the second header byte is not examined again. -/
theorem test_push_second_0x42 : let t := go (.push 0x42#8) (frameAt [0x42#8] tb)
    t.out.rsp = rsp .noData 0 ∧ t.u3.syncState = .first ∧ t.u3.cur.val = 0 ∧ t.sum16 = 0 := by decide +kernel
/-- H2 and H5. -/
theorem test_rd : (go (.rd 0x02#8) tb).out.rsp = rsp .ok 0xFF#32 ∧ (go (.rd 0x1A#8) tb).out.rsp = rsp .eRange 0 := by
  decide +kernel
/-- H8 and H9. -/
theorem test_rdbuf : (go (.rdbuf 0#8) (buf [0x24#8] tb)).out.rsp = rsp .ok 0x24#32 ∧
    (go (.rdbuf 1#8) (buf [0x24#8] tb)).out.rsp = rsp .eRange 0 := by decide +kernel
/-- H7 and H10. -/
theorem test_ldbuf : (go (.ldbuf 0x24#8) tb).out.rsp = rsp .ok 1#32 ∧
    (go (.ldbuf 0#8) (buf (List.replicate 80 7#8) tb)).out.rsp = rsp .eRange 0x50#32 := by decide +kernel
/-- H12. -/
theorem test_clrbuf : let t := go .clrbuf (buf (fix20 ++ [0x80#8]) tb)
    t.out.rsp = rsp .ok 0 ∧ t.u1.rxlen.val = 0 := by decide +kernel
/-- Accumulator alone (2.5): wrap, hold, clear, load. -/
theorem test_sum : (go (.sumAdd 0x01#8) { tb with sum16 := 0xFFFF#16 }).sum16 = 0x0000#16 ∧
    (go .sumHold { tb with sum16 := 0x1234#16 }).sum16 = 0x1234#16 ∧
    (go .sumClr { tb with sum16 := 0x1234#16 }).sum16 = 0x0000#16 ∧
    (go (.sumLoad 0x42#8) { tb with sum16 := 0x1234#16 }).sum16 = 0x0042#16 := by decide +kernel
/-- Micro-operations of the CRC engine (2.1). -/
theorem test_crc : (go (.crcByte 0x24#8) tb).u2.crc8 = 0x42#8 ∧
    (go .crcHold (go (.crcByte 0x24#8) tb)).u2.crc8 = 0x42#8 ∧
    (go .crcClr { tb with u2 := { tb.u2 with crc8 := 0x5C#8 } }).u2.crc8 = 0x00#8 ∧
    (go (.crcLoad 0x01#8) { tb with u2 := { tb.u2 with crc8 := 0x5C#8 } }).u2.crc8 = 0x31#8 := by decide +kernel
/-- The vectors of 2.1. -/
theorem test_crc_lists : crc8 [0x01#8] = 0x31#8 ∧ crc8 [0x24#8, 0x42#8] = 0x00#8 ∧
    crc8 [0x01#8, 0x02#8, 0x03#8, 0x04#8] = 0xFE#8 ∧ crc8 (fix20.take 16) = 0xA4#8 ∧ crc8 fix20 = 0x80#8 := by
  decide +kernel
/-- The examples of R122 and R123: an answer stands in the event list. -/
theorem test_bus_reads : (go (.rreg 0x20#8) (ans [0x05#8] tb)).out.trace = [⟨.rreg 0x20#8, [0x05#8]⟩] ∧
    (go (.rburst 0x21#8 2#8) (ans [0xDE#8, 0xAD#8] tb)).out.trace = [⟨.rburst 0x21#8 2#8, [0xDE#8, 0xAD#8]⟩] := by
  decide +kernel
/-- The examples of R121, R124 and R125. -/
theorem test_bus_writes : (go (.wreg 0x04#8 0x55#8) tb).out.trace.map (·.event.word) = [0x10455#20] ∧
    (go (.strobe 0x30#8) tb).out.trace.map (·.event.word) = [0x43000#20] ∧
    (go (.wait 10#8) tb).out.trace.map (·.event.word) = [0x8000A#20] := by decide +kernel
/-- The word placed by `withFetchWord` runs at the next step. -/
theorem test_step_runs_fetched_word :
    (nextState (step (State.reset.withFetchWord 16 0x7024))).map (fun t => (t.u1.rxlen.val, t.out.rsp)) =
      some (1, rsp .ok 1#32) := by decide +kernel
/-- The syntax of R110, with a line of program P1. -/
theorem test_text : outText (go .poll (ans [0x80#8] tb)).out =
    ["> RREG 32", "< 80", "> STROBE 48", "> STROBE 49", "= (1, 0)"] := by decide +kernel

/-! ### Witnesses -/

/-- Bytes 0xFF, the largest field data of S8. -/
def ffFrame31 : List Byte := [0x42#8, 0x4D#8] ++ List.replicate 28 0xFF#8 ++ [0x1C#8]

/-- A machine in mid frame, armed, with a packet received. -/
def midFrame : State :=
  frameAt ffFrame31
    { (buf (List.replicate 17 0#8) tb) with
      u1 := { (buf (List.replicate 17 0#8) tb).u1 with chipOk := true, band := 1#1, drvState := .armed } }

/-- The same with a host word pending. -/
def busy (w : BitVec 16) : State := ask (.host w) midFrame

theorem midFrame_base : BaseInv midFrame :=
  ⟨by decide +kernel, by decide +kernel, .inr rfl, by decide, by decide, by decide, by decide, by decide, by decide,
    Nat.two_pow_pos _, Nat.two_pow_pos _⟩

theorem midFrame_frame : FrameInv midFrame :=
  ⟨by decide, by decide, by decide, by decide +kernel, by decide +kernel, by decide +kernel⟩

theorem midFrame_latch : LatchInv midFrame := ⟨by decide, by decide, by decide, by decide, by decide⟩

theorem busy_base (w : BitVec 16) : BaseInv (busy w) := by
  obtain ⟨h1, h2, h3, h4, h5, h6, h7, h8, h9, h10, h11⟩ := midFrame_base
  exact ⟨h1, h2, h3, h4, h5, h6, h7, h8, h9, h10, h11⟩

theorem busy_frame (w : BitVec 16) : FrameInv (busy w) := by
  obtain ⟨h1, h2, h3, h4, h5, h6⟩ := midFrame_frame
  exact ⟨h1, h2, h3, h4, h5, h6⟩

theorem busy_inv (w : BitVec 16) : Inv (busy w) := by
  obtain ⟨h1, h2, h3, h4, h5⟩ := midFrame_latch
  refine ⟨fun r hr => ⟨w, ?_⟩, busy_base w, busy_frame w, ⟨h1, h2, h3, h4, h5⟩⟩
  have h : (busy w).inp.requests = [⟨.host w, some 5000, []⟩] := rfl
  rw [h, List.mem_singleton] at hr
  rw [hr]

/-- A PUSH that makes a valid frame of it: S8. -/
theorem witness_StepKeepsInv : ∃ s t, Inv s ∧ step s = .next t ∧ t.u3.reading.valid = true :=
  ⟨busy 0x4073#16, _, busy_inv _, rfl, by decide +kernel⟩

theorem witness_StepKeepsInv_reserved : ∃ s t, Inv s ∧ step s = .next t := ⟨busy 0xFFFF#16, _, busy_inv _, rfl⟩

theorem witness_StepKeepsBaseInv : ∃ s t, BaseInv s ∧ step s = .next t ∧ t.u2.reading.valid = true :=
  ⟨busy 0x3000#16, _, busy_base _, rfl, by decide +kernel⟩

theorem witness_ConfigurationNeverChanges : ∃ s t, step s = .next t ∧ t.u1 ≠ s.u1 :=
  ⟨ask (.host 0x7024#16) tb, _, rfl, by decide +kernel⟩

theorem witness_ChipStatusOnlyByInit : ∃ s t, step s = .next t ∧ t.u1.chipOk ≠ s.u1.chipOk ∧ t.u1.band ≠ s.u1.band :=
  ⟨tb.pushRequest ⟨.host 0x1001#16, none, [0x5A#8]⟩, _, rfl, by decide +kernel⟩

theorem witness_DrvStateTransitions : ∃ t u v,
    exec (.init 0#1) (ans [0x5A#8] tb) = .next t ∧ (ans [0x5A#8] tb).answerAt 0 = tb.cfg.probeExpect ∧
    exec (.init 0#1) (ans [0x5B#8] tb) = .next u ∧ (ans [0x5B#8] tb).answerAt 0 ≠ tb.cfg.probeExpect ∧
    exec .decode t = .next v :=
  ⟨_, _, _, rfl, by decide, rfl, by decide, rfl⟩

/-- The rows of R160: first bytes 0x80, 0x00, and 0x03 with second bytes 0x85, 0x00, 0x02. -/
theorem witness_DrvStateTransitions_poll : (∀ bs, ∃ t, exec .poll (ans bs tb) = .next t) ∧
    occOverflow tb.cfg 0x80#8 = true ∧ occOverflow tb.cfg 0x00#8 = false ∧ occCount tb.cfg 0x00#8 = 0 ∧
    occOverflow tb.cfg 0x03#8 = false ∧ occCount tb.cfg 0x03#8 ≠ 0 ∧ occOverflow tb.cfg 0x85#8 = true ∧
    occOverflow tb.cfg 0x02#8 = false ∧ occCount tb.cfg 0x02#8 ≠ 0 :=
  ⟨fun _ => ⟨_, rfl⟩, by decide, by decide, by decide, by decide, by decide, by decide, by decide, by decide⟩

theorem witness_DrvStateTransitions_reserved : ∃ s t r rest, s.inp.requests = r :: rest ∧
    decode r.word = .rejected .reservedCommand ∧ step s = .next t :=
  ⟨busy 0xFFFF#16, _, _, _, rfl, by decide, rfl⟩

theorem witness_WeatherLatchesOnlyByAcceptedDecode : ∃ s t, step s = .next t ∧ t.u2.reading ≠ s.u2.reading ∧
    t.u2.familyWarn ≠ s.u2.familyWarn :=
  ⟨busy 0x3000#16, _, rfl, by decide +kernel⟩

theorem witness_WeatherLatchesOnlyByAcceptedDecode_valid :
    let s := ask (.host 0x3000#16) (go .decode (busy 0x3000#16))
    ∃ t, step s = .next t ∧ s.u2.reading.valid = true :=
  ⟨_, rfl, by decide +kernel⟩

theorem witness_ParticulateLatchesOnlyByValidFrame : ∃ s t, Memory.wf 32 s.u3.fbuf = true ∧ step s = .next t ∧
    t.u3.reading ≠ s.u3.reading :=
  ⟨busy 0x4073#16, _, by decide +kernel, rfl, by decide +kernel⟩

theorem witness_ParticulateLatchesOnlyByValidFrame_valid :
    let s := ask (.host 0x4042#16) (go (.push 0x73#8) (busy 0x2000#16))
    ∃ t, Memory.wf 32 s.u3.fbuf = true ∧ step s = .next t ∧ s.u3.reading.valid = true :=
  ⟨_, by decide +kernel, rfl, by decide +kernel⟩

theorem witness_ErrorOutcomesKeepReadings : ∃ s t r, Instr.isHost (.push 0x74#8) = true ∧
    exec (.push 0x74#8) s = .next t ∧ t.out.rsp = some r ∧ r.code = .ePmChecksum ∧ r.code ≠ .ok :=
  ⟨busy 0x2000#16, _, ⟨.ePmChecksum, 0⟩, rfl, rfl, by decide +kernel, rfl, by decide⟩

theorem witness_PathsAreIndependent : ∃ t u, Instr.isHost (.push 0x42#8) = true ∧ exec (.push 0x42#8) tb = .next t ∧
    Instr.isHost .clrbuf = true ∧ exec .clrbuf tb = .next u ∧ (∀ d, Instr.clrbuf ≠ .push d) ∧
    (∀ b, Instr.clrbuf ≠ .init b) ∧ Instr.clrbuf ≠ .poll :=
  ⟨_, _, rfl, rfl, rfl, rfl, (by intro _ h; cases h), (by intro _ h; cases h), by decide⟩

theorem witness_EventCountsBounded : Instr.isHost (.init 1#1) = true ∧ Instr.isHost .poll = true ∧
    Instr.isHost (.rd 0xFF#8) = true := by decide

theorem witness_DecodedWordsEncodeBack : decode (.host 0x70FF#16) = .instr (.ldbuf 0xFF#8) ∧
    decode (.bus 0x800FF#20) = .instr (.wait 0xFF#8) ∧ decode (.sum 0x0FF#10) = .instr .sumHold ∧
    decode (.sum 0x3FF#10) = .instr (.sumLoad 0xFF#8) ∧ decode (.crc 0x2FF#10) = .instr .crcClr ∧
    decode (.crc 0x1FF#10) = .instr (.crcByte 0xFF#8) := by decide

theorem witness_HostDecodeFollowsTable : 0x1001#16 &&& 0xFFFE#16 = 0x1000#16 ∧ 0x2000#16 &&& 0xFFFF#16 = 0x2000#16 ∧
    0x3000#16 &&& 0xFFFF#16 = 0x3000#16 ∧ 0x40FF#16 &&& 0xFF00#16 = 0x4000#16 ∧
    0x50FF#16 &&& 0xFF00#16 = 0x5000#16 ∧ 0x60FF#16 &&& 0xFF00#16 = 0x6000#16 ∧
    0x70FF#16 &&& 0xFF00#16 = 0x7000#16 ∧ 0x8000#16 &&& 0xFFFF#16 = 0x8000#16 ∧
    ∃ r ∈ hostRows, r.matches 0x40FF#16 = true := by
  refine ⟨by decide, by decide, by decide, by decide, by decide, by decide, by decide, by decide, ?_⟩
  exact ⟨⟨0x4000#16, 0xFF00#16⟩, by decide, by decide⟩

theorem witness_BusDecodeFollowsTable : 0x1FFFF#20 &&& 0xF0000#20 = 0x10000#20 ∧
    0x2FF00#20 &&& 0xF00FF#20 = 0x20000#20 ∧ 0x3FFFF#20 &&& 0xF0000#20 = 0x30000#20 ∧
    0x4FF00#20 &&& 0xF00FF#20 = 0x40000#20 ∧ 0x800FF#20 &&& 0xFFF00#20 = 0x80000#20 := by decide

theorem witness_MicroDecodeFollowsTable : 0x0FF#10 &&& 0x300#10 = 0x000#10 ∧ 0x1FF#10 &&& 0x300#10 = 0x100#10 ∧
    0x2FF#10 &&& 0x300#10 = 0x200#10 ∧ 0x3FF#10 &&& 0x300#10 = 0x300#10 := by decide

/-- A word of every kind R104 lists, at the edge of its kind. -/
theorem witness_ReservedCommandsAnswered :
    (ask (.host 0x0FFF#16) tb).inp.requests = [⟨.host 0x0FFF#16, some 5000, []⟩] ∧ (0x0FFF#16).toNat / 4096 = 0 ∧
    9 ≤ (0x9000#16).toNat / 4096 ∧ (0x4100#16).toNat / 256 % 16 ≠ 0 ∧
    ((0x1002#16).toNat / 4096 = 1 ∧ (0x1002#16).toNat % 256 / 2 ≠ 0) ∧
    ((0x2001#16).toNat / 4096 = 2 ∧ (0x2001#16).toNat % 256 ≠ 0) ∧
    ((0x3001#16).toNat / 4096 = 3 ∧ (0x3001#16).toNat % 256 ≠ 0) ∧
    ((0x80FF#16).toNat / 4096 = 8 ∧ (0x80FF#16).toNat % 256 ≠ 0) :=
  ⟨rfl, by decide⟩

theorem witness_StepRunsDecodedInstruction : ∃ (s : State) (r : Request) (rest : List Request) (i : Instr), s.inp.requests = r :: rest ∧ decode r.word = .instr i :=
  ⟨ask (.host 0x2000#16) tb, _, _, .poll, rfl, by decide⟩

theorem witness_IdleStepChangesNothing : State.reset.inp.requests = [] := rfl

theorem witness_ResponsesPerCommand : (allRegs.all fun g => (Instr.rd (regNum g)).isHost) = true ∧
    (ask (.host 0x9000#16) tb).inp.requests = [⟨.host 0x9000#16, some 5000, []⟩] ∧
    decode (.host 0x9000#16) = .rejected .reservedCommand :=
  ⟨by decide, rfl, by decide⟩

theorem witness_HostWordsNeverStop : ∃ (s : State) (r : Request) (rest : List Request), s.inp.requests = r :: rest ∧ r.word = .host 0xFFFF#16 :=
  ⟨ask (.host 0xFFFF#16) tb, _, _, rfl, rfl⟩

theorem witness_UndefinedBusWordsStop : (ask (.bus 0x20001#20) tb).inp.requests = [⟨.bus 0x20001#20, some 5000, []⟩] ∧
    (busRows.all fun row => row.matches 0x20001#20 == false && row.matches 0x40001#20 == false &&
      row.matches 0x80100#20 == false && row.matches 0x00000#20 == false && row.matches 0xFFFFF#20 == false) = true ∧
    80 < (81#8).toNat :=
  ⟨rfl, by decide, by decide⟩

theorem witness_BurstReadsItsLength : 1 ≤ (1#8).toNat ∧ (1#8).toNat ≤ 80 ∧ 1 ≤ (80#8).toNat ∧ (80#8).toNat ≤ 80 := by
  decide

theorem witness_OccupancyByteFields : cfgTB.occOvfMask = 0x80#8 ∧ cfgTB.occCntMask = 0x7F#8 ∧
    (let c : Cfg := { cfgTB with occCntMask := 0x3C#8 }
     c.occCntMask.getLsbD 2 = true ∧ ∀ j < 2, c.occCntMask.getLsbD j = false) := by decide

theorem witness_InitTableThenProbe : tb.cfg.probeFirst = false ∧
    (ans [0x5A#8] tb).answerAt 0 = tb.cfg.probeExpect ∧ (ans [0x5B#8] tb).answerAt 0 ≠ tb.cfg.probeExpect := by
  decide +kernel

theorem witness_InitProbeThenTable : tbProbeFirst.cfg.probeFirst = true ∧
    (ans [0x5A#8] tbProbeFirst).answerAt 0 = tbProbeFirst.cfg.probeExpect ∧
    (ans [0xFF#8] tbProbeFirst).answerAt 0 ≠ tbProbeFirst.cfg.probeExpect := by decide +kernel

theorem witness_PollFirstRead : occOverflow cfgTB ((ans [0xFF#8] tb).answerAt 0) = true ∧
    occOverflow cfgTB ((ans [0x00#8] tb).answerAt 0) = false ∧ occCount cfgTB ((ans [0x00#8] tb).answerAt 0) = 0 := by
  decide +kernel

theorem witness_PollSecondRead : let s := ans [0x01#8, 0x85#8] tb
    let u := ans [0x7F#8, 0x00#8] tb
    occOverflow cfgTB (s.answerAt 0) = false ∧ occCount cfgTB (s.answerAt 0) ≠ 0 ∧
    occOverflow cfgTB (s.answerAt 1) = true ∧ occOverflow cfgTB (u.answerAt 0) = false ∧
    occCount cfgTB (u.answerAt 0) ≠ 0 ∧ occOverflow cfgTB (u.answerAt 1) = false ∧
    occCount cfgTB (u.answerAt 1) = 0 := by decide +kernel

/-- Counts of 1 and of 127, the edges. -/
theorem witness_PollDrainsPacket : let s := ans [0x01#8, 0x01#8] tb
    let u := ans [0x7F#8, 0x7F#8] tb
    Memory.wf 80 s.u1.rxbuf = true ∧ occOverflow cfgTB (s.answerAt 0) = false ∧ occCount cfgTB (s.answerAt 0) ≠ 0 ∧
    occOverflow cfgTB (s.answerAt 1) = false ∧ occCount cfgTB (s.answerAt 1) = 1 ∧
    occOverflow cfgTB (u.answerAt 0) = false ∧ occCount cfgTB (u.answerAt 0) ≠ 0 ∧
    occOverflow cfgTB (u.answerAt 1) = false ∧ occCount cfgTB (u.answerAt 1) = 127 := by decide +kernel

theorem witness_PollRearmsAfterReadOrOverflow :
    let evs := (go .poll (ans [0x03#8, 0x01#8, 0xDE#8] tb)).out.trace
    let overflow := (go .poll (ans [0x80#8] tb)).out.trace
    (∃ before after, evs = before ++ ⟨.rburst 0x21#8 1#8, [0xDE#8]⟩ :: after) ∧
    (∃ before after, overflow = before ++ ⟨.rreg 0x20#8, [0x80#8]⟩ :: after) ∧ occOverflow cfgTB 0x80#8 = true :=
  ⟨⟨[⟨.rreg 0x20#8, [0x03#8]⟩, ⟨.wait 10#8, []⟩, ⟨.rreg 0x20#8, [0x01#8]⟩],
      [⟨.strobe 0x30#8, []⟩, ⟨.strobe 0x31#8, []⟩], by decide +kernel⟩,
    ⟨[], [⟨.strobe 0x30#8, []⟩, ⟨.strobe 0x31#8, []⟩], by decide +kernel⟩, by decide⟩

/-- A chip that holds one byte, and a second that arrives during the wait. -/
theorem witness_PollLeavesChipSimListening :
    let s := ans [0x01#8, 0x02#8, 0xDE#8, 0xAD#8] tb
    let k : Chip := { chipStart cfgTB with fifo := [0xDE#8], listening := true }
    let air : List (List Byte) := [[], [], [0xAD#8], [], [], [0x77#8]]
    ∃ t, exec .poll s = .next t ∧ tb.cfg.strobesWf = true ∧ t.out.rsp.map (·.code) = some .ok ∧
      t.out.trace = s.out.trace ++ t.out.trace ∧ air.length = t.out.trace.length ∧
      (chipReplay cfgTB 64 (air.zip t.out.trace) k).isSome = true :=
  ⟨_, rfl, by decide +kernel⟩

theorem witness_CrcAlgebra : fix20.length = (pmf30.take 20).length := by
  decide

theorem witness_CrcSeesOneChangedByte : (0x00#8 : Byte) ≠ 0x01#8 := by decide

theorem witness_DecodeTooShort : tb.u1.rxlen.val < 17 ∧ (buf (fix20.take 16) tb).u1.rxlen.val = 16 := by decide +kernel

/-- The CRC DECODE computes. -/
def crcOf (s : State) : Byte := crc8 ((List.range (s.u1.rxlen.val - 1)).map (Memory.read s.u1.rxbuf))

/-- A full buffer of zeros, but for its last byte. -/
def fullZeros (b : Byte) : State := buf (List.replicate 79 0#8 ++ [b]) tb

theorem crcOf_fullZeros_ff : crcOf (fullZeros 0xFF#8) = 0#8 := by
  have h : (List.range ((fullZeros 0xFF#8).u1.rxlen.val - 1)).map (Memory.read (fullZeros 0xFF#8).u1.rxbuf) =
      List.replicate 79 0#8 := by decide +kernel
  rw [crcOf, h]
  simp [crc8, List.replicate, crc8Step_zero_zero]

theorem crcOf_fullZeros_zero : crcOf (fullZeros 0#8) = 0#8 := by
  have h : (List.range ((fullZeros 0#8).u1.rxlen.val - 1)).map (Memory.read (fullZeros 0#8).u1.rxbuf) =
      List.replicate 79 0#8 := by decide +kernel
  rw [crcOf, h]
  simp [crc8, List.replicate, crc8Step_zero_zero]

/-- Lengths 17 and 80. -/
theorem witness_DecodeChecksumMismatch : let s := buf (List.replicate 16 0#8 ++ [1#8]) tb
    s.u1.rxlen.val = 17 ∧ crcOf s ≠ Memory.read s.u1.rxbuf 16 ∧ (fullZeros 0xFF#8).u1.rxlen.val = 80 ∧
    crcOf (fullZeros 0xFF#8) ≠ Memory.read (fullZeros 0xFF#8).u1.rxbuf 79 := by
  refine ⟨by decide +kernel, by decide +kernel, by decide +kernel, ?_⟩
  rw [crcOf_fullZeros_ff]
  decide +kernel

/-- W3, W5 and a full buffer of zeros: lengths 17, 20 and 80. -/
theorem witness_DecodeAcceptsFrame : let s := buf (fix20.take 16 ++ [0xA4#8]) tb
    let u := buf (fix20.take 19 ++ [0xB4#8]) tb
    s.u1.rxlen.val = 17 ∧ crcOf s = Memory.read s.u1.rxbuf 16 ∧ u.u1.rxlen.val = 20 ∧
    crcOf u = Memory.read u.u1.rxbuf 19 ∧ (fullZeros 0#8).u1.rxlen.val = 80 ∧
    crcOf (fullZeros 0#8) = Memory.read (fullZeros 0#8).u1.rxbuf 79 := by
  refine ⟨by decide +kernel, by decide +kernel, by decide +kernel, by decide +kernel, by decide +kernel, ?_⟩
  rw [crcOf_fullZeros_zero]
  decide +kernel

/-- The frame of W3, loaded. -/
def frameW3 : State := buf (fix20.take 16 ++ [0xA4#8]) tb

/-- The same with another band, another old `CRC8` and another stale byte. -/
def frameW3Other : State :=
  { frameW3 with
    u1 := { frameW3.u1 with band := 1#1, rxbuf := Memory.write frameW3.u1.rxbuf 60 0x99#8 }
    u2 := { frameW3.u2 with crc8 := 0x5C#8 } }

theorem witness_DecodeIsPure : frameW3Other.cfg = frameW3.cfg ∧ frameW3Other.u1.rxlen = frameW3.u1.rxlen ∧
    frameW3Other.inp.now = frameW3.inp.now ∧ frameW3Other.u2 ≠ frameW3.u2 ∧
    ∀ k < frameW3.u1.rxlen.val, Memory.read frameW3Other.u1.rxbuf k = Memory.read frameW3.u1.rxbuf k :=
  ⟨rfl, rfl, rfl, by decide +kernel, by decide +kernel⟩

/-- The first byte and the CRC byte of an accepted frame. -/
theorem witness_DecodeRejectsOneChangedByte : Memory.wf 80 frameW3.u1.rxbuf = true ∧ 17 ≤ frameW3.u1.rxlen.val ∧
    crc8 ((List.range (frameW3.u1.rxlen.val - 1)).map (Memory.read frameW3.u1.rxbuf)) =
      Memory.read frameW3.u1.rxbuf (frameW3.u1.rxlen.val - 1) ∧
    0 < frameW3.u1.rxlen.val ∧ 0x25#8 ≠ Memory.read frameW3.u1.rxbuf 0 ∧ 16 < frameW3.u1.rxlen.val ∧
    0xA5#8 ≠ Memory.read frameW3.u1.rxbuf 16 := by decide +kernel

theorem witness_LoadedFrameWithItsCrcAccepted : Memory.wf 80 tb.u1.rxbuf = true ∧ 16 ≤ (fix20.take 16).length ∧
    (fix20.take 16).length ≤ 79 ∧ 16 ≤ (List.replicate 79 0xFF#8).length ∧ (List.replicate 79 0xFF#8).length ≤ 79 := by
  decide +kernel

theorem witness_PushAwaitingFirstHeader : tb.u3.syncState = .first ∧ Memory.wf 32 tb.u3.fbuf = true ∧
    (0x4D#8 : Byte) ≠ 0x42#8 := by decide +kernel

theorem witness_PushAwaitingSecondHeader : let s := frameAt [0x42#8] tb
    s.u3.syncState = .second ∧ Memory.wf 32 s.u3.fbuf = true ∧ s.sum16 = 0x0042#16 ∧ (0x42#8 : Byte) ≠ 0x4D#8 := by
  decide +kernel

theorem witness_PushAccumulates : let s := frameAt [0x42#8, 0x4D#8] tb
    let u := frameAt (pmf30.take 29) tb
    let v := frameAt pmf30 tb
    s.u3.cur.val = 2 ∧ s.u3.syncState = .acc ∧ Memory.wf 32 s.u3.fbuf = true ∧
    u.u3.cur.val = 29 ∧ u.u3.syncState = .acc ∧ Memory.wf 32 u.u3.fbuf = true ∧
    v.u3.cur.val = 30 ∧ v.u3.syncState = .acc ∧ Memory.wf 32 v.u3.fbuf = true := by decide +kernel

theorem witness_PushCompletesFrame : let s := frameAt (pmf30 ++ [0x02#8]) tb
    s.u3.syncState = .acc ∧ s.u3.cur.val = 31 ∧ Memory.wf 32 s.u3.fbuf = true ∧ s.cfg.offsetsWf = true ∧
    s.sum16.toNat = (Memory.read s.u3.fbuf 30).toNat * 256 + (0xFD#8).toNat ∧
    s.sum16.toNat ≠ (Memory.read s.u3.fbuf 30).toNat * 256 + (0xFC#8).toNat := by decide +kernel

theorem witness_SumStaysWithinBounds : FrameInv (busy 0x2000#16) ∧ (busy 0x2000#16).u3.syncState = .acc ∧
    (busy 0x2000#16).sum16.toNat = 7283 :=
  ⟨busy_frame _, by decide, by decide +kernel⟩

theorem witness_StreamedFrameIsRead : let ds := List.replicate 28 0xFF#8
    tb.u3.syncState = .first ∧ Memory.wf 32 tb.u3.fbuf = true ∧ tb.cfg.offsetsWf = true ∧ ds.length = 28 ∧
    (0x1C#8).toNat * 256 + (0x73#8).toNat = 0x42 + 0x4D + (ds.map BitVec.toNat).sum ∧
    (0x1C#8).toNat * 256 + (0x74#8).toNat ≠ 0x42 + 0x4D + (ds.map BitVec.toNat).sum := by decide +kernel

theorem witness_ResyncWithin31Bytes : FrameInv (busy 0x2000#16) ∧ (List.replicate 31 0x42#8).length = 31 :=
  ⟨busy_frame _, by decide⟩

theorem witness_PushesAreChunkInvariant : ∀ i ∈ [Instr.push 0x42#8, .poll, .decode, .init 0#1, .push 0x4D#8],
    i.isHost = true := by decide

theorem witness_RdReturnsRegisters :
    ([0x07#8, 0x0F#8].all fun r => decide (0x07 ≤ r.toNat ∧ r.toNat ≤ 0x0F)) = true ∧
    ([0x1A#8, 0x1F#8].all fun r => decide (0x1A ≤ r.toNat ∧ r.toNat ≤ 0x1F)) = true ∧
    ([0x2A#8, 0xFF#8].all fun r => decide (0x2A ≤ r.toNat)) = true := by decide

theorem witness_BufferCommands : (0x00#8).toNat < (buf [0x24#8] tb).u1.rxlen.val ∧
    (buf [0x24#8] tb).u1.rxlen.val ≤ (0x01#8).toNat ∧ (buf (List.replicate 79 7#8) tb).u1.rxlen.val < 80 ∧
    Memory.wf 80 (buf (List.replicate 79 7#8) tb).u1.rxbuf = true ∧
    (buf (List.replicate 80 7#8) tb).u1.rxlen.val = 80 := by decide +kernel

/-- After a POLL that returned 17 bytes: zeros, whose CRC is 0x00, and the byte `b` last. -/
def polled17 (b : Byte) : State := go .poll (ans ([0x11#8, 0x11#8] ++ List.replicate 16 0#8 ++ [b]) tb)

/-- A cycle whose POLL returns a packet (16 bytes; 17 with a wrong CRC; 17 with the right one), one whose POLL returns
none, and readings to keep. -/
theorem witness_CycleConsumesItsPacket :
    (go .poll (ans [0x10#8, 0x10#8] tb)).out.rsp.map (·.code) = some .ok ∧
    (go .poll (ans [0x10#8, 0x10#8] tb)).u1.rxlen.val = 16 ∧
    (polled17 1#8).out.rsp.map (·.code) = some .ok ∧ (polled17 1#8).u1.rxlen.val = 17 ∧
    crcOf (polled17 1#8) ≠ Memory.read (polled17 1#8).u1.rxbuf 16 ∧
    (polled17 0#8).out.rsp.map (·.code) = some .ok ∧ (polled17 0#8).u1.rxlen.val = 17 ∧
    crcOf (polled17 0#8) = Memory.read (polled17 0#8).u1.rxbuf 16 ∧
    (go .poll (ans [0x00#8] tb)).out.rsp.map (·.code) ≠ some .ok ∧
    (go .decode (polled17 0#8)).u2.reading.valid = true ∧
    (go (.push 0x73#8) midFrame).u3.reading.valid = true := by decide +kernel

/-- The bits that the last clause of StatusFields speaks of. -/
theorem witness_StatusFields : 10 ≤ 10 ∧ 10 ≤ 31 := by decide

end Sys2Proof.Tests
end

section
/-! PROOFS. The family of spec/00_scope.md: the occupancy byte of R8, the values at reset (R55), the one step of a
pending request (R11, R80), and that a host word is always answered (R11, R272, R280). -/

namespace Sys2Proof.Machine

open Sys2Proof

/-! ### The occupancy byte (R8) -/

theorem occOverflow_iff (c : Cfg) (s : Byte) : occOverflow c s = true ↔ s &&& c.occOvfMask ≠ 0#8 :=
  bne_iff_ne

/-- The shift is the number of the count mask's lowest one bit. -/
theorem occShift_eq {c : Cfg} {t : Nat} (ht : t < 8) (hone : c.occCntMask.getLsbD t = true)
    (hzero : ∀ j < t, c.occCntMask.getLsbD j = false) : occShift c = t := by
  have hfind : (List.range 8).find? (fun j => c.occCntMask.getLsbD j) = some t := by
    rw [List.find?_range_eq_some]
    exact ⟨hone, List.mem_range.mpr ht, fun j hj => by simp only [hzero j hj, Bool.not_false]⟩
  rw [occShift, hfind, Option.getD_some]

theorem occCount_eq_div {c : Cfg} {t : Nat} (s : Byte) (ht : t < 8) (hone : c.occCntMask.getLsbD t = true)
    (hzero : ∀ j < t, c.occCntMask.getLsbD j = false) : occCount c s = (s &&& c.occCntMask).toNat / 2 ^ t := by
  rw [occCount, occShift_eq ht hone hzero, BitVec.toNat_ushiftRight, Nat.shiftRight_eq_div_pow]

/-- With R8's default mask the overflow flag is bit 7. -/
theorem occOverflow_default {c : Cfg} (hovf : c.occOvfMask = 0x80#8) (s : Byte) : occOverflow c s = s.getLsbD 7 := by
  have hbit : ∀ x : Byte, ((x &&& 0x80#8) != 0x00#8) = x.getLsbD 7 := by decide +kernel
  rw [occOverflow, hovf, hbit]

/-- With R8's default mask the count is bits 6:0. -/
theorem occCount_default {c : Cfg} (hcnt : c.occCntMask = 0x7F#8) (s : Byte) : occCount c s = s.toNat % 128 := by
  have hlow : (s &&& 0x7F#8).toNat = s.toNat % 128 := by
    rw [BitVec.toNat_and]
    exact Nat.and_two_pow_sub_one_eq_mod s.toNat 7
  rw [occCount_eq_div (t := 0) s (by decide) (by rw [hcnt]; decide) (fun _ hj => absurd hj (Nat.not_lt_zero _)),
    hcnt, hlow, Nat.pow_zero, Nat.div_one]

/-- Settles O28: the count through its shift, the default masks from it. -/
theorem occupancyByteFields : Obligations.OccupancyByteFields :=
  ⟨occOverflow_iff, fun _ s _ ht hone hzero => occCount_eq_div s ht hone hzero,
    fun _ s hovf hcnt => ⟨occOverflow_default hovf s, occCount_default hcnt s⟩⟩

/-! ### Reset (R55) -/

theorem Cfg.wf_iff (c : Cfg) :
    c.wf = true ↔ c.tableWf = true ∧ c.masksWf = true ∧ c.offsetsWf = true ∧ c.strobesWf = true := by
  simp only [Cfg.wf, Bool.and_eq_true, and_assoc]

/-- The configuration at reset is well formed: the OPEN parameters by their type, R8's defaults by evaluation. -/
theorem cfg_wf : Config.cfg.wf = true := by
  obtain ⟨htable, -, -, hstrobes⟩ := (Cfg.wf_iff _).mp (@Config.openCfg Config.someCfg).property
  exact (Cfg.wf_iff _).mpr ⟨htable, rfl, rfl, hstrobes⟩

/-- Settles O14: every value by evaluation, but for the OPEN configuration, whose type says that it is well formed. -/
theorem resetValues : Obligations.ResetValues :=
  ⟨rfl, rfl, rfl, rfl, rfl, rfl, rfl, rfl, rfl, rfl, rfl, rfl, rfl, rfl, rfl, cfg_wf, rfl, rfl, rfl, rfl, rfl, rfl, rfl⟩

/-! ### The step of a pending request (R11, R80) -/

theorem step_of_instr {s : State} {r : Request} {rest : List Request} {i : Instr} (hreq : s.inp.requests = r :: rest)
    (hdec : decode r.word = .instr i) : step s = exec i (s.accept r rest) := by
  simp only [step, hreq, hdec]

theorem step_of_rejected {s : State} {r : Request} {rest : List Request} {e : DecodeError}
    (hreq : s.inp.requests = r :: rest) (hdec : decode r.word = .rejected e) :
    step s = rejectWord e (s.accept r rest) := by
  simp only [step, hreq, hdec]

/-- Settles O9: the state is the accepted one, written out. -/
theorem stepRunsDecodedInstruction : Obligations.StepRunsDecodedInstruction :=
  fun _ _ _ _ hreq hdec => step_of_instr hreq hdec

/-! ### Every host word is answered (R11, R272, R280) -/

/-- A host word is a host command or reserved (R92, R104). -/
theorem decodeHost_cases (w : BitVec 16) :
    (∃ i, decodeHost w = .instr i ∧ i.isHost = true) ∨ decodeHost w = .rejected .reservedCommand := by
  fun_cases decodeHost w with
  | case1 | case3 | case5 | case7 | case13 | case14 => exact .inr rfl
  | case2 | case4 | case6 | case8 | case9 | case10 | case11 | case12 => exact .inl ⟨_, rfl, rfl⟩

/-- `t` holds a response whose code is not the internal one, and the requests that are pending in `s`. -/
def Answered (s t : State) : Prop :=
  (∃ rsp, t.out.rsp = some rsp ∧ rsp.code ≠ .bufferOverflow) ∧ t.inp.requests = s.inp.requests

theorem answered_respond {s t : State} {c : Code} {d : Word32} (hc : c ≠ .bufferOverflow)
    (hreq : t.inp.requests = s.inp.requests) : Answered s (t.respond c d) :=
  ⟨⟨⟨c, d⟩, rfl, hc⟩, hreq⟩

theorem Answered.of_requests_eq {s t u : State} (h : Answered t u) (hreq : t.inp.requests = s.inp.requests) :
    Answered s u :=
  ⟨h.1, h.2.trans hreq⟩

@[simp] theorem State.writeTable_inp (b : BitVec 1) (es : List CfgEntry) (s : State) :
    (s.writeTable b es).inp = s.inp := by
  rw [State.writeTable_eq]

@[simp] theorem State.crcBytes_inp (bs : List Byte) (s : State) : (s.crcBytes bs).inp = s.inp := by
  rw [State.crcBytes_eq]

/-- INIT ends in a response, its requests untouched, on either end (R145, R148). -/
theorem initFinish_answered (b : BitVec 1) (p : Byte) (s : State) : Answered s (initFinish b p s) := by
  unfold initFinish
  split
  · exact answered_respond (by decide) (by split <;> simp)
  · exact answered_respond (by decide) rfl

theorem pollDrain_answered (n : Fin 81) (s : State) : Answered s (pollDrain n s) := by
  rw [pollDrain_eq]
  exact ⟨⟨_, rfl, nofun⟩, rfl⟩

theorem pollSecond_answered (s : State) : Answered s (pollSecond s) := by
  unfold pollSecond
  dsimp only
  split
  · exact answered_respond (by decide) (by simp)
  · split
    · exact answered_respond (by decide) rfl
    · exact (pollDrain_answered _ _).of_requests_eq rfl

theorem frameComplete_answered (s : State) : Answered s (frameComplete s) := by
  unfold frameComplete
  split <;> exact answered_respond (by decide) rfl

theorem pushAcc_answered (d : Byte) (s : State) : Answered s (pushAcc d s) := by
  unfold pushAcc
  dsimp only
  split
  · exact answered_respond (by decide) (by split <;> rfl)
  · exact (frameComplete_answered _).of_requests_eq rfl

theorem execInit_answered (b : BitVec 1) (s : State) : ∃ t, execInit b s = .next t ∧ Answered s t :=
  ⟨_, rfl, (initFinish_answered _ _ _).of_requests_eq (by split <;> simp)⟩

theorem execPoll_answered (s : State) : ∃ t, execPoll s = .next t ∧ Answered s t := by
  refine ⟨_, rfl, ?_⟩
  split
  · exact answered_respond (by decide) (by simp)
  · split
    · exact answered_respond (by decide) rfl
    · exact (pollSecond_answered _).of_requests_eq rfl

theorem execDecode_answered (s : State) : ∃ t, execDecode s = .next t ∧ Answered s t := by
  refine ⟨_, rfl, ?_⟩
  split
  · exact answered_respond (by decide) rfl
  · dsimp only
    split <;> exact answered_respond (by decide) (by simp)

theorem execPush_answered (d : Byte) (s : State) : ∃ t, execPush d s = .next t ∧ Answered s t := by
  refine ⟨_, rfl, ?_⟩
  split
  · split <;> exact answered_respond (by decide) rfl
  · split <;> exact answered_respond (by decide) rfl
  · exact pushAcc_answered d s

/-- Every host command goes on, with an answer (R11, R280). -/
theorem exec_host_answered {i : Instr} (hi : i.isHost = true) (s : State) : ∃ t, exec i s = .next t ∧ Answered s t := by
  cases i with
  | init b => exact execInit_answered b s
  | poll => exact execPoll_answered s
  | decode => exact execDecode_answered s
  | push d => exact execPush_answered d s
  | rd r => exact ⟨_, rfl, by split <;> exact answered_respond (by decide) rfl⟩
  | rdbuf k => exact ⟨_, rfl, by split <;> exact answered_respond (by decide) rfl⟩
  | ldbuf d => exact ⟨_, rfl, by split <;> exact answered_respond (by decide) rfl⟩
  | clrbuf => exact ⟨_, rfl, answered_respond (by decide) rfl⟩
  | _ => exact absurd hi Bool.false_ne_true

/-- Settles O12: a host word decodes to a host command or is reserved, and both are answered. -/
theorem hostWordsNeverStop : Obligations.HostWordsNeverStop := by
  intro s r rest w hreq hword
  have hanswered : ∃ t, step s = .next t ∧ Answered (s.accept r rest) t := by
    rcases decodeHost_cases w with ⟨i, hdec, hi⟩ | hdec
    · rw [step_of_instr hreq (by rw [hword]; exact hdec)]
      exact exec_host_answered hi _
    · rw [step_of_rejected hreq (by rw [hword]; exact hdec)]
      exact ⟨_, rfl, answered_respond (by decide) rfl⟩
  obtain ⟨t, hstep, ⟨rsp, hrsp, hcode⟩, hpending⟩ := hanswered
  exact ⟨t, rsp, hstep, hrsp, hcode, hpending⟩

end Sys2Proof.Machine
end

section
/-! PROOFS. What the commands with cases of their own can do, said once: the next state of INIT, POLL, DECODE and PUSH
in every case (R145, R155, R180, R212), and what the other instructions leave unchanged. -/

namespace Sys2Proof.Machine

open Sys2Proof

/-! ### INIT (R145, R148) -/

/-- What INIT can do; the events are left open. -/
inductive InitStep (b : BitVec 1) (s : State) : State → Prop
  | found (hprobe : s.nextAnswer = s.cfg.probeExpect) (events : List BusRecord) :
    InitStep b s
      { s with
        u1 := { s.u1 with chipOk := true, band := b, drvState := .armed }
        inp := { s.inp with ansPos := s.inp.ansPos + 1 }
        out := { rsp := some ⟨.ok, s.nextAnswer.zeroExtend 32⟩, trace := events } }
  | missing (hprobe : s.nextAnswer ≠ s.cfg.probeExpect) (events : List BusRecord) :
    InitStep b s
      { s with
        u1 := { s.u1 with chipOk := false, band := b, drvState := .idle }
        inp := { s.inp with ansPos := s.inp.ansPos + 1 }
        out := { rsp := some ⟨.eChipNotDetected, s.nextAnswer.zeroExtend 32⟩, trace := events } }

/-- The end of INIT, on a state that differs from `s` by `BAND`, the probe's answer taken and the events. -/
theorem initFinish_step (b : BitVec 1) (s : State) (events : List BusRecord) :
    InitStep b s
      (initFinish b s.nextAnswer
        { s with
          u1 := { s.u1 with band := b }
          inp := { s.inp with ansPos := s.inp.ansPos + 1 }
          out := { s.out with trace := events } }) := by
  by_cases hprobe : s.nextAnswer = s.cfg.probeExpect
  · cases hf : s.cfg.probeFirst with
    | false =>
      rw [initFinish_match]
      · exact .found hprobe _
      · exact hprobe
      · exact hf
    | true =>
      rw [initFinish_match_probeFirst]
      · exact .found hprobe _
      · exact hprobe
      · exact hf
  · rw [initFinish_mismatch]
    · exact .missing hprobe _
    · exact hprobe

theorem execInit_step {b : BitVec 1} {s t : State} (h : execInit b s = .next t) : InitStep b s t := by
  cases h
  split
  · exact initFinish_step b s _
  · rw [State.writeTable_eq]
    exact initFinish_step b s _

/-! ### POLL (R155 to R158) -/

/-- What POLL can do: overflow or nothing received at the first occupancy read; overflow, nothing or a packet at the
second. -/
inductive PollStep (s : State) : State → Prop
  | overflow (hovf : occOverflow s.cfg (s.answerAt s.inp.ansPos) = true) (events : List BusRecord) :
    PollStep s
      { s with
        u1 := { s.u1 with drvState := .armed, rxlen := 0 }
        inp := { s.inp with ansPos := s.inp.ansPos + 1 }
        out := { rsp := some ⟨.noData, 0⟩, trace := events } }
  | empty (hovf : occOverflow s.cfg (s.answerAt s.inp.ansPos) = false)
      (hcnt : occCount s.cfg (s.answerAt s.inp.ansPos) = 0) (events : List BusRecord) :
    PollStep s
      { s with
        u1 := { s.u1 with rxlen := 0 }
        inp := { s.inp with ansPos := s.inp.ansPos + 1 }
        out := { rsp := some ⟨.noData, 0⟩, trace := events } }
  | overflowSettled (hovf : occOverflow s.cfg (s.answerAt s.inp.ansPos) = false)
      (hcnt : occCount s.cfg (s.answerAt s.inp.ansPos) ≠ 0)
      (hovf2 : occOverflow s.cfg (s.answerAt (s.inp.ansPos + 1)) = true) (events : List BusRecord) :
    PollStep s
      { s with
        u1 := { s.u1 with drvState := .armed, rxlen := 0 }
        inp := { s.inp with ansPos := s.inp.ansPos + 2 }
        out := { rsp := some ⟨.noData, 0⟩, trace := events } }
  | emptySettled (hovf : occOverflow s.cfg (s.answerAt s.inp.ansPos) = false)
      (hcnt : occCount s.cfg (s.answerAt s.inp.ansPos) ≠ 0)
      (hovf2 : occOverflow s.cfg (s.answerAt (s.inp.ansPos + 1)) = false)
      (hcnt2 : occCount s.cfg (s.answerAt (s.inp.ansPos + 1)) = 0) (events : List BusRecord) :
    PollStep s
      { s with
        u1 := { s.u1 with rxlen := 0 }
        inp := { s.inp with ansPos := s.inp.ansPos + 2 }
        out := { rsp := some ⟨.noData, 0⟩, trace := events } }
  | packet (hovf : occOverflow s.cfg (s.answerAt s.inp.ansPos) = false)
      (hcnt : occCount s.cfg (s.answerAt s.inp.ansPos) ≠ 0)
      (hovf2 : occOverflow s.cfg (s.answerAt (s.inp.ansPos + 1)) = false)
      (hcnt2 : occCount s.cfg (s.answerAt (s.inp.ansPos + 1)) ≠ 0) (n : Fin 81)
      (hn : n = burstLen (occCount s.cfg (s.answerAt (s.inp.ansPos + 1))))
      (bs : List Byte) (hlen : bs.length = n.val) (events : List BusRecord) :
    PollStep s
      { s with
        u1 := { s.u1 with drvState := .armed, rxbuf := Memory.writeList s.u1.rxbuf 0 bs, rxlen := n }
        inp := { s.inp with ansPos := s.inp.ansPos + 2 + n.val }
        out := { rsp := some ⟨.ok, BitVec.ofNat 32 n.val⟩, trace := events } }

/-- POLL from its second occupancy read on, `s` being the state it started from. -/
theorem pollSecond_step {s : State} (hovf : occOverflow s.cfg (s.answerAt s.inp.ansPos) = false)
    (hcnt : occCount s.cfg (s.answerAt s.inp.ansPos) ≠ 0) :
    PollStep s (pollSecond ((s.setRxLen 0).perform (.rreg s.cfg.occAddr))) := by
  unfold pollSecond
  dsimp only
  split
  · next hovf2 =>
    rw [State.rearm_eq]
    exact .overflowSettled hovf hcnt hovf2 _
  · next hovf2 =>
    have hovf2 := eq_false_of_ne_true hovf2
    split
    · next hcnt2 => exact .emptySettled hovf hcnt hovf2 hcnt2 _
    · next hcnt2 =>
      rw [pollDrain_eq]
      exact .packet hovf hcnt hovf2 hcnt2 _ rfl _ (State.answerBytes_length _ _) _

theorem execPoll_step {s t : State} (h : execPoll s = .next t) : PollStep s t := by
  cases h
  split
  · next hovf =>
    rw [State.rearm_eq]
    exact .overflow hovf _
  · next hovf =>
    have hovf := eq_false_of_ne_true hovf
    split
    · next hcnt => exact .empty hovf hcnt _
    · next hcnt => exact pollSecond_step hovf hcnt

/-! ### DECODE (R180) -/

/-- The CRC that DECODE computes: over all bytes of the packet but the last. -/
def packetCrc (s : State) : Byte := crc8 (s.rxBytes (s.u1.rxlen.val - 1))

/-- The packet's last byte, its own CRC. -/
def packetLast (s : State) : Byte := Memory.read s.u1.rxbuf (s.u1.rxlen.val - 1)

/-- What DECODE can do. -/
inductive DecodeStep (s : State) : State → Prop
  | short (hlen : s.u1.rxlen.val < 17) :
    DecodeStep s
      { s with
        u1 := { s.u1 with rxlen := 0 }
        u2 := { s.u2 with wxLast := 0x20#8 }
        out := { s.out with rsp := some ⟨.eTooShort, 0⟩ } }
  | mismatch (hlen : 17 ≤ s.u1.rxlen.val) (hcrc : packetCrc s ≠ packetLast s) :
    DecodeStep s
      { s with
        u1 := { s.u1 with rxlen := 0 }
        u2 := { s.u2 with crc8 := packetCrc s, wxLast := 0x21#8 }
        out := { s.out with rsp := some ⟨.eWxChecksum, 0⟩ } }
  | accepted (hlen : 17 ≤ s.u1.rxlen.val) (hcrc : packetCrc s = packetLast s) :
    DecodeStep s
      { s with
        u1 := { s.u1 with rxlen := 0 }
        u2 :=
          { crc8 := packetCrc s
            wxLast := 0x00#8
            familyWarn := familyWarnOf s.cfg (Memory.read s.u1.rxbuf 0)
            reading := wxReadingOf s.cfg s.u1.rxbuf s.u1.rxlen.val s.sampleNow }
        out :=
          { s.out with
            rsp := some ⟨.ok,
              (BitVec.ofBool (familyWarnOf s.cfg (Memory.read s.u1.rxbuf 0))).zeroExtend 32⟩ } }

theorem execDecode_step {s t : State} (h : execDecode s = .next t) : DecodeStep s t := by
  by_cases hlen : s.u1.rxlen.val < 17
  · simp only [execDecode, hlen, if_true] at h
    cases h
    exact .short hlen
  · rw [execDecode_long (Nat.le_of_not_lt hlen)] at h
    cases h
    split
    · next hcrc => exact .accepted (Nat.le_of_not_lt hlen) hcrc
    · next hcrc => exact .mismatch (Nat.le_of_not_lt hlen) hcrc

/-! ### PUSH (R212 to R218) -/

/-- What PUSH can do, by the header bytes still to come and by the bytes already stored. -/
inductive PushStep (d : Byte) (s : State) : State → Prop
  | skipped (hsync : s.u3.syncState = .first) (hd : d ≠ 0x42#8) :
    PushStep d s { s with out := { s.out with rsp := some ⟨.noData, 0⟩ } }
  | firstHeader (hsync : s.u3.syncState = .first) (hd : d = 0x42#8) :
    PushStep d s
      { s with
        u3 := { s.u3 with syncState := .second, cur := 1, fbuf := Memory.write s.u3.fbuf 0 d }
        sum16 := 0x0042#16
        out := { s.out with rsp := some ⟨.noData, 0⟩ } }
  | secondHeader (hsync : s.u3.syncState = .second) (hd : d = 0x4D#8) :
    PushStep d s
      { s with
        u3 := { s.u3 with syncState := .acc, cur := 2, fbuf := Memory.write s.u3.fbuf 1 d }
        sum16 := s.sum16 + 0x004D#16
        out := { s.out with rsp := some ⟨.noData, 0⟩ } }
  | lost (hsync : s.u3.syncState = .second) (hd : d ≠ 0x4D#8) :
    PushStep d s
      { s with
        u3 := { s.u3 with syncState := .first, cur := 0 }
        sum16 := 0#16
        out := { s.out with rsp := some ⟨.noData, 0⟩ } }
  | stored (hsync : s.u3.syncState = .acc) (hcur : s.u3.cur.val < 31) :
    PushStep d s
      { s with
        u3 :=
          { s.u3 with
            syncState := .acc
            cur := ⟨s.u3.cur.val + 1, by omega⟩
            fbuf := Memory.write s.u3.fbuf s.u3.cur.val d }
        sum16 := if s.u3.cur.val < 30 then s.sum16 + d.zeroExtend 16 else s.sum16
        out := { s.out with rsp := some ⟨.noData, 0⟩ } }
  | valid (hsync : s.u3.syncState = .acc) (hcur : s.u3.cur.val = 31)
      (hsum : s.sum16 = be16 (Memory.write s.u3.fbuf 31 d) 30) :
    PushStep d s
      { s with
        u3 :=
          { syncState := .first
            cur := 0
            fbuf := Memory.write s.u3.fbuf 31 d
            pmLast := 0x00#8
            reading := pmReadingOf s.cfg (Memory.write s.u3.fbuf 31 d) s.sampleNow }
        sum16 := 0#16
        out := { s.out with rsp := some ⟨.ok, 0⟩ } }
  | invalid (hsync : s.u3.syncState = .acc) (hcur : s.u3.cur.val = 31)
      (hsum : s.sum16 ≠ be16 (Memory.write s.u3.fbuf 31 d) 30) :
    PushStep d s
      { s with
        u3 :=
          { s.u3 with
            syncState := .first, cur := 0, fbuf := Memory.write s.u3.fbuf 31 d, pmLast := 0x30#8 }
        sum16 := 0#16
        out := { s.out with rsp := some ⟨.ePmChecksum, 0⟩ } }

theorem pushAcc_step (d : Byte) {s : State} (hsync : s.u3.syncState = .acc) : PushStep d s (pushAcc d s) := by
  by_cases hcur : s.u3.cur.val < 31
  · rw [pushAcc_below hcur]
    exact .stored hsync hcur
  · have hcur : s.u3.cur.val = 31 := by omega
    rw [pushAcc_last hcur]
    by_cases hsum : s.sum16 = be16 (Memory.write s.u3.fbuf 31 d) 30
    · rw [frameComplete_valid hsum]
      exact .valid hsync hcur hsum
    · rw [frameComplete_invalid hsum]
      exact .invalid hsync hcur hsum

theorem execPush_step {d : Byte} {s t : State} (h : execPush d s = .next t) : PushStep d s t := by
  cases h
  split
  · next hsync =>
    split
    · next hd => subst hd; exact .firstHeader hsync rfl
    · next hd => exact .skipped hsync hd
  · next hsync =>
    split
    · next hd => subst hd; exact .secondHeader hsync rfl
    · next hd => exact .lost hsync hd
  · next hsync => exact pushAcc_step d hsync

/-! ### Every instruction -/

/-- A burst that is not refused is performed, and that is all it does (R123). -/
theorem exec_rburst_step {a n : Byte} {s t : State} (h : exec (.rburst a n) s = .next t) :
    t = s.perform (.rburst a n) := by
  simp only [exec, execRburst] at h
  split at h <;> cases h
  rfl

/-- What an instruction can do. `access` is RD, RDBUF, LDBUF and CLRBUF, of which the last two write the receive
buffer; `event` is a bus event alone; `sum` and `crc` are the micro-operations. -/
inductive ExecStep (s : State) : Instr → State → Prop
  | init {b : BitVec 1} {t : State} (h : InitStep b s t) : ExecStep s (.init b) t
  | poll {t : State} (h : PollStep s t) : ExecStep s .poll t
  | decode {t : State} (h : DecodeStep s t) : ExecStep s .decode t
  | push {d : Byte} {t : State} (h : PushStep d s t) : ExecStep s (.push d) t
  | access {i : Instr} (m : Memory) (n : Fin 81) (r : Rsp)
      (hm : Memory.wf 80 s.u1.rxbuf = true → Memory.wf 80 m = true) :
    ExecStep s i
      { s with u1 := { s.u1 with rxbuf := m, rxlen := n }, out := { s.out with rsp := some r } }
  | event {i : Instr} (e : BusEvent) : ExecStep s i (s.perform e)
  | sum {i : Instr} (x : BitVec 16) (hi : i.isHost = false) : ExecStep s i { s with sum16 := x }
  | crc {i : Instr} (c : Byte) : ExecStep s i { s with u2 := { s.u2 with crc8 := c } }

theorem exec_step {i : Instr} {s t : State} (h : exec i s = .next t) : ExecStep s i t := by
  cases i with
  | init b => exact .init (execInit_step h)
  | poll => exact .poll (execPoll_step h)
  | decode => exact .decode (execDecode_step h)
  | push d => exact .push (execPush_step h)
  | rd r => cases h; split <;> exact .access _ _ _ id
  | rdbuf k => cases h; split <;> exact .access _ _ _ id
  | ldbuf d =>
    cases h
    split
    · next hlen => exact .access _ _ _ fun hwf => Memory.write_wf hwf hlen
    · exact .access _ _ _ id
  | clrbuf => cases h; exact .access _ _ _ id
  | wreg a v => cases h; exact .event _
  | rreg a => cases h; exact .event _
  | rburst a n => rw [exec_rburst_step h]; exact .event _
  | strobe c => cases h; exact .event _
  | wait ms => cases h; exact .event _
  | sumHold | sumAdd d | sumClr | sumLoad d => cases h; exact .sum _ rfl
  | crcHold | crcByte d | crcClr | crcLoad d => cases h; exact .crc _

/-- Only INIT and POLL write U1 outside the receive buffer and its length (R22 to R25). -/
theorem exec_u1_of_not_init_poll {i : Instr} {s t : State} (hinit : ∀ b, i ≠ .init b) (hpoll : i ≠ .poll)
    (h : exec i s = .next t) : ∃ m n, t.u1 = { s.u1 with rxbuf := m, rxlen := n } := by
  cases exec_step h with
  | init h => exact absurd rfl (hinit _)
  | poll h => exact absurd rfl hpoll
  | decode h => cases h <;> exact ⟨_, _, rfl⟩
  | push h => cases h <;> exact ⟨_, _, rfl⟩
  | _ => exact ⟨_, _, rfl⟩

/-- Only DECODE writes U2 outside the CRC register (R27 to R30). -/
theorem exec_u2_of_not_decode {i : Instr} {s t : State} (hi : i ≠ .decode) (h : exec i s = .next t) :
    ∃ c, t.u2 = { s.u2 with crc8 := c } := by
  cases exec_step h with
  | init h => cases h <;> exact ⟨_, rfl⟩
  | poll h => cases h <;> exact ⟨_, rfl⟩
  | decode h => exact absurd rfl hi
  | push h => cases h <;> exact ⟨_, rfl⟩
  | _ => exact ⟨_, rfl⟩

/-- Only PUSH writes U3 (R31 to R37). -/
theorem exec_u3_of_not_push {i : Instr} {s t : State} (hi : ∀ d, i ≠ .push d) (h : exec i s = .next t) :
    t.u3 = s.u3 := by
  cases exec_step h with
  | init h => cases h <;> rfl
  | poll h => cases h <;> rfl
  | decode h => cases h <;> rfl
  | push h => exact absurd rfl (hi _)
  | _ => rfl

/-! ### The word of a host command (R92) -/

/-- A byte whose high seven bits are zero is made of its lowest bit. -/
theorem zero_append_lowest_bit : ∀ b : Byte, b.extractLsb' 1 7 = 0#7 → 0#7 ++ b.extractLsb' 0 1 = b := by
  decide +kernel

/-- A word with the fields of a host command is that command's word (R91). -/
theorem hWord_eq {w : BitVec 16} {op : BitVec 4} {imm : Byte} (hz : ¬ zField w ≠ 0x0#4) (hop : opField w = op)
    (himm : immField w = imm) : hWord op imm = w := by
  rw [← hop, ← himm]
  exact hWord_of_fields (not_not.mp hz)

/-- The host port's decoder reads a command from that command's word only. -/
theorem encode_of_decodeHost {w : BitVec 16} {i : Instr} (h : decodeHost w = .instr i) : encode i = .host w := by
  revert h
  fun_cases decodeHost w with
  | case1 | case3 | case5 | case7 | case13 | case14 => exact nofun
  | case2 imm hz hop hb =>
    intro h
    cases h
    exact congrArg PortWord.host (hWord_eq hz hop (zero_append_lowest_bit _ hb).symm)
  | case4 imm hz _ hop himm | case6 imm hz _ _ hop himm | case12 imm hz _ _ _ _ _ _ _ hop himm =>
    intro h
    cases h
    exact congrArg PortWord.host (hWord_eq hz hop himm)
  | case8 imm hz _ _ _ hop | case9 imm hz _ _ _ _ hop | case10 imm hz _ _ _ _ _ hop
  | case11 imm hz _ _ _ _ _ _ hop =>
    intro h
    cases h
    exact congrArg PortWord.host (hWord_eq hz hop rfl)

/-- The words of the internal ports are no host commands (R100, R105). -/
theorem not_isHost_of_decodeBus {w : BitVec 20} {i : Instr} (h : decodeBus w = .instr i) : i.isHost = false := by
  revert h
  fun_cases decodeBus w <;> intro h <;> cases h <;> rfl

theorem not_isHost_of_decodeSum {w : BitVec 10} {i : Instr} (h : decodeSum w = .instr i) : i.isHost = false := by
  revert h
  fun_cases decodeSum w <;> intro h <;> cases h <;> rfl

theorem not_isHost_of_decodeCrc {w : BitVec 10} {i : Instr} (h : decodeCrc w = .instr i) : i.isHost = false := by
  revert h
  fun_cases decodeCrc w <;> intro h <;> cases h <;> rfl

/-- Whatever the port, a host command is read from that command's word only. -/
theorem eq_encode_of_decode_host {p : PortWord} {i : Instr} (hi : i.isHost = true) (h : decode p = .instr i) :
    p = encode i := by
  cases p with
  | host w => exact (encode_of_decodeHost h).symm
  | bus w => exact absurd hi (Bool.not_eq_true _ ▸ not_isHost_of_decodeBus h)
  | sum w => exact absurd hi (Bool.not_eq_true _ ▸ not_isHost_of_decodeSum h)
  | crc w => exact absurd hi (Bool.not_eq_true _ ▸ not_isHost_of_decodeCrc h)

end Sys2Proof.Machine
end

section
/-! PROOFS. The invariants of a machine: they hold at reset, and every instruction keeps them (R24, R25, R28 to R37,
R220). -/

namespace Sys2Proof.Machine

open Sys2Proof

/-! ### The running sum (R35, R220) -/

@[simp] theorem byteSum_zero (m : Memory) : byteSum m 0 = 0#16 := rfl

/-- Storing at or above index `n` leaves the sum of the low `n` bytes. -/
theorem byteSum_write_above {m : Memory} {n k : Nat} (d : Byte) (hm : Memory.wf 32 m = true) (hk : n ≤ k) :
    byteSum (Memory.write m k d) n = byteSum m n := by
  refine byteSum_congr fun j hj => ?_
  rw [Memory.read_write hm, if_neg (by omega)]

/-- Storing the next byte adds it to the sum. -/
theorem byteSum_write_next {m : Memory} (n : Nat) (d : Byte) (hm : Memory.wf 32 m = true) :
    byteSum (Memory.write m n d) (n + 1) = byteSum m n + d.setWidth 16 := by
  rw [byteSum_succ, byteSum_write_above d hm le_rfl, Memory.read_write hm, if_pos rfl]

/-- With the header stored, each of at most 28 further bytes adds 0 to 255 to the 0x8F of the header (R220). -/
theorem byteSum_bounds {m : Memory} (h0 : Memory.read m 0 = 0x42#8) (h1 : Memory.read m 1 = 0x4D#8) :
    ∀ k ≤ 28, 143 ≤ (byteSum m (2 + k)).toNat ∧ (byteSum m (2 + k)).toNat ≤ 143 + 255 * k
  | 0, _ => by
    have hsum : byteSum m 2 = 143#16 := by
      rw [byteSum_succ, byteSum_succ, h0, h1]
      rfl
    rw [Nat.add_zero, hsum]
    decide
  | k + 1, hk => by
    obtain ⟨hlo, hhi⟩ := byteSum_bounds h0 h1 k (by omega)
    have hbyte := (Memory.read m (2 + k)).isLt
    rw [← Nat.add_assoc, byteSum_succ, BitVec.toNat_add, BitVec.toNat_setWidth]
    omega

/-- Settles O53: by how many bytes are stored; with none or one the sum is a constant. -/
theorem sumStaysWithinBounds : Obligations.SumStaysWithinBounds := by
  intro s hs
  rw [hs.sumOfStored]
  cases hsync : s.u3.syncState with
  | first =>
    rw [hs.firstIff.mp hsync, Nat.zero_min, byteSum_zero]
    exact ⟨by decide, nofun⟩
  | second =>
    have hcur := hs.secondIff.mp hsync
    have hsum : byteSum s.u3.fbuf 1 = 66#16 := by
      rw [byteSum_succ, hs.header0 (by omega)]
      rfl
    rw [hcur, show min 1 30 = 1 from rfl, hsum]
    exact ⟨by decide, nofun⟩
  | acc =>
    have hcur := hs.accIff.mp hsync
    have hb := byteSum_bounds (hs.header0 (by omega)) (hs.header1 hcur) (min s.u3.cur.val 30 - 2) (by omega)
    rw [show 2 + (min s.u3.cur.val 30 - 2) = min s.u3.cur.val 30 by omega] at hb
    omega

/-! ### Reset (R55) -/

/-- Nothing stored and nothing summed meets the invariants of U3 and U4 (R33). -/
theorem frameInv_of_empty {s : State} (hsync : s.u3.syncState = .first) (hcur : s.u3.cur = 0) (hsum : s.sum16 = 0#16) :
    FrameInv s := by
  constructor <;> simp [hsync, hcur, hsum]

theorem reset_baseInv : BaseInv State.reset where
  rxbufWf := rfl
  fbufWf := rfl
  drvBetween := .inl rfl
  wxLastCode := by decide
  pmLastCode := by decide
  tempRange := by decide
  wdirRange := by decide
  wspdRange := by decide
  gustRange := by decide
  wxTimeWidth := Nat.two_pow_pos _
  pmTimeWidth := Nat.two_pow_pos _

theorem reset_latchInv : LatchInv State.reset where
  wxUnset _ := ⟨rfl, rfl⟩
  pmUnset _ := rfl
  wxLastOk := nofun
  pmLastOk := nofun
  chipArmed := nofun

/-- Settles O15: the values of R55, one invariant at a time. -/
theorem resetMeetsInv : Obligations.ResetMeetsInv where
  host := nofun
  base := reset_baseInv
  frame := frameInv_of_empty rfl rfl rfl
  latch := reset_latchInv

/-! ### What every port keeps (R24, R25, R28, R29, R34) -/

theorem InitStep.baseInv {b : BitVec 1} {s t : State} (hs : BaseInv s) (h : InitStep b s t) : BaseInv t := by
  cases h with
  | found => exact { hs with drvBetween := .inr rfl }
  | missing => exact { hs with drvBetween := .inl rfl }

theorem PollStep.baseInv {s t : State} (hs : BaseInv s) (h : PollStep s t) : BaseInv t := by
  cases h with
  | overflow | overflowSettled => exact { hs with drvBetween := .inr rfl }
  | empty | emptySettled => exact { hs with }
  | packet _ _ _ _ n _ bs hlen =>
    exact { hs with rxbufWf := Memory.writeList_wf hs.rxbufWf (by omega), drvBetween := .inr rfl }

theorem wxTempOf_range (b5 b6 : Byte) : -400 ≤ (wxTempOf b5 b6).toInt ∧ (wxTempOf b5 b6).toInt ≤ 3695 := by
  have := b6.isLt
  rw [wxTempOf_toInt]
  omega

theorem wxSpeedOf_range (b : Byte) : (wxSpeedOf b).toNat ≤ 9180 ∧ (wxSpeedOf b).toNat % 36 = 0 := by
  have := b.isLt
  rw [wxSpeedOf_toNat]
  omega

theorem wxDirOf_le (d : BitVec 16) : (wxDirOf d).toNat ≤ 360 := by
  rw [wxDirOf_toNat]
  split <;> omega

theorem State.sampleNow_lt (s : State) : s.sampleNow < 2 ^ s.cfg.timeW := Nat.mod_lt _ (Nat.two_pow_pos _)

theorem DecodeStep.baseInv {s t : State} (hs : BaseInv s) (h : DecodeStep s t) : BaseInv t := by
  cases h with
  | short | mismatch => exact { hs with wxLastCode := by simp }
  | accepted =>
    exact { hs with
      wxLastCode := by simp
      tempRange := wxTempOf_range _ _
      wdirRange := wxDirOf_le _
      wspdRange := wxSpeedOf_range _
      gustRange := wxSpeedOf_range _
      wxTimeWidth := s.sampleNow_lt }

theorem PushStep.baseInv {d : Byte} {s t : State} (hs : BaseInv s) (h : PushStep d s t) : BaseInv t := by
  have hstore : ∀ k < 32, Memory.wf 32 (Memory.write s.u3.fbuf k d) = true :=
    fun _ hk => Memory.write_wf hs.fbufWf hk
  cases h with
  | skipped | lost => exact { hs with }
  | firstHeader | secondHeader => exact { hs with fbufWf := hstore _ (by decide) }
  | stored => exact { hs with fbufWf := hstore _ s.u3.cur.isLt }
  | valid =>
    exact { hs with fbufWf := hstore _ (by decide), pmLastCode := by simp, pmTimeWidth := s.sampleNow_lt }
  | invalid => exact { hs with fbufWf := hstore _ (by decide), pmLastCode := by simp }

theorem exec_baseInv {i : Instr} {s t : State} (hs : BaseInv s) (h : exec i s = .next t) : BaseInv t := by
  cases exec_step h with
  | init h => exact h.baseInv hs
  | poll h => exact h.baseInv hs
  | decode h => exact h.baseInv hs
  | push h => exact h.baseInv hs
  | access m n r hm => exact { hs with rxbufWf := hm hs.rxbufWf }
  | event | sum | crc => exact { hs with }

/-- Settles O17: an instruction keeps `BaseInv`, and so do taking a request and answering a reserved word. -/
theorem stepKeepsBaseInv : Obligations.StepKeepsBaseInv := by
  intro s t hs h
  rcases step_cases h with ⟨-, rfl⟩ | ⟨r, rest, i, -, -, hexec⟩ | ⟨r, rest, -, -, rfl⟩
  · exact hs
  · exact exec_baseInv (s := s.accept r rest) { hs with } hexec
  · exact { hs with }

/-! ### The frame assembly and the running sum (R32, R33, R35) -/

/-- A byte stored after the header. -/
theorem FrameInv.store {s t : State} {d : Byte} (hs : FrameInv s) (hwf : Memory.wf 32 s.u3.fbuf = true)
    (h2 : 2 ≤ s.u3.cur.val) (hsync : t.u3.syncState = .acc) (hcur : t.u3.cur.val = s.u3.cur.val + 1)
    (hbuf : t.u3.fbuf = Memory.write s.u3.fbuf s.u3.cur.val d)
    (hsum : t.sum16 = if s.u3.cur.val < 30 then s.sum16 + d.zeroExtend 16 else s.sum16) : FrameInv t where
  firstIff := by simp [hsync, hcur]
  secondIff := by simp [hsync, hcur]; omega
  accIff := by simp [hsync, hcur]; omega
  header0 _ := by rw [hbuf, Memory.read_write hwf, if_neg (by omega), hs.header0 (by omega)]
  header1 _ := by rw [hbuf, Memory.read_write hwf, if_neg (by omega), hs.header1 h2]
  sumOfStored := by
    rw [hsum, hs.sumOfStored, hbuf, hcur]
    split
    · next h30 => rw [min_eq_left (by omega), min_eq_left (by omega), byteSum_write_next _ _ hwf]
    · next h30 => rw [min_eq_right (by omega), min_eq_right (by omega), byteSum_write_above d hwf (by omega)]

theorem PushStep.frameInv {d : Byte} {s t : State} (hs : FrameInv s) (hwf : Memory.wf 32 s.u3.fbuf = true)
    (h : PushStep d s t) : FrameInv t := by
  cases h with
  | skipped => exact { hs with }
  | lost | valid | invalid => exact frameInv_of_empty rfl rfl rfl
  | firstHeader hsync hd =>
    exact {
      firstIff := by simp
      secondIff := by simp
      accIff := by simp
      header0 := fun _ => by rw [Memory.read_write hwf, if_pos rfl, hd]
      header1 := fun h => absurd h (by simp)
      sumOfStored := by
        change _ = byteSum _ (0 + 1)
        rw [byteSum_write_next _ _ hwf, hd]
        rfl }
  | secondHeader hsync hd =>
    have hcur := hs.secondIff.mp hsync
    exact {
      firstIff := by simp
      secondIff := by simp
      accIff := by simp
      header0 := fun _ => by rw [Memory.read_write hwf, if_neg (by decide), hs.header0 (by omega)]
      header1 := fun _ => by rw [Memory.read_write hwf, if_pos rfl, hd]
      sumOfStored := by
        change _ = byteSum _ (1 + 1)
        rw [byteSum_write_next _ _ hwf, hd, hs.sumOfStored, hcur]
        rfl }
  | stored hsync hcur => exact hs.store hwf (hs.accIff.mp hsync) rfl rfl rfl rfl

/-- A host command keeps the invariants of U3 and U4; a KS word alone would not. -/
theorem exec_host_frameInv {i : Instr} {s t : State} (hi : i.isHost = true) (hs : FrameInv s)
    (hwf : Memory.wf 32 s.u3.fbuf = true) (h : exec i s = .next t) : FrameInv t := by
  cases exec_step h with
  | init h => cases h <;> exact { hs with }
  | poll h => cases h <;> exact { hs with }
  | decode h => cases h <;> exact { hs with }
  | push h => exact h.frameInv hs hwf
  | sum x hi' => rw [hi] at hi'; cases hi'
  | access | event | crc => exact { hs with }

/-! ### What goes with the valid flags (R30, R37, R56) -/

theorem exec_latchInv {i : Instr} {s t : State} (hs : LatchInv s) (h : exec i s = .next t) : LatchInv t := by
  cases exec_step h with
  | init h =>
    cases h with
    | found => exact { hs with chipArmed := fun _ => rfl }
    | missing => exact { hs with chipArmed := nofun }
  | poll h =>
    cases h with
    | overflow | overflowSettled | packet => exact { hs with chipArmed := fun _ => rfl }
    | empty | emptySettled => exact { hs with }
  | decode h =>
    cases h with
    | short | mismatch => exact { hs with wxLastOk := nofun }
    | accepted => exact { hs with wxUnset := nofun, wxLastOk := fun _ => rfl }
  | push h =>
    cases h with
    | valid => exact { hs with pmUnset := nofun, pmLastOk := fun _ => rfl }
    | invalid => exact { hs with pmLastOk := nofun }
    | _ => exact { hs with }
  | access | event | sum | crc => exact { hs with }

/-! ### Every step of a host-driven machine -/

theorem hostOnly_accept {s : State} {r : Request} {rest : List Request} (hs : hostOnly s)
    (hreq : s.inp.requests = r :: rest) : hostOnly (s.accept r rest) :=
  fun q hq => hs q (by rw [hreq]; exact List.mem_cons_of_mem r hq)

theorem Inv.accept {s : State} {r : Request} {rest : List Request} (hs : Inv s) (hreq : s.inp.requests = r :: rest) :
    Inv (s.accept r rest) where
  host := hostOnly_accept hs.host hreq
  base := { hs.base with }
  frame := { hs.frame with }
  latch := { hs.latch with }

/-- The instruction of a host-driven machine's oldest request is a host command (R92, R105). -/
theorem isHost_of_hostOnly {s : State} {r : Request} {rest : List Request} {i : Instr} (hs : hostOnly s)
    (hreq : s.inp.requests = r :: rest) (hdec : decode r.word = .instr i) : i.isHost = true := by
  obtain ⟨w, hw⟩ := hs r (by rw [hreq]; exact List.mem_cons_self)
  rw [hw] at hdec
  rcases decodeHost_cases w with ⟨j, hj, hhost⟩ | hrej
  · cases hj.symm.trans hdec
    exact hhost
  · cases hrej.symm.trans hdec

theorem exec_host_requests {i : Instr} {s t : State} (hi : i.isHost = true) (h : exec i s = .next t) :
    t.inp.requests = s.inp.requests := by
  obtain ⟨u, hu, -, hreq⟩ := exec_host_answered hi s
  cases hu.symm.trans h
  exact hreq

theorem exec_host_inv {i : Instr} {s t : State} (hi : i.isHost = true) (hs : Inv s) (h : exec i s = .next t) :
    Inv t where
  host := by
    unfold hostOnly
    rw [exec_host_requests hi h]
    exact hs.host
  base := exec_baseInv hs.base h
  frame := exec_host_frameInv hi hs.frame hs.base.fbufWf h
  latch := exec_latchInv hs.latch h

/-- Settles O16: the accepted state meets the invariant, and a host command keeps each part of it. -/
theorem stepKeepsInv : Obligations.StepKeepsInv := by
  intro s t hs h
  rcases step_cases h with ⟨-, rfl⟩ | ⟨r, rest, i, hreq, hdec, hexec⟩ | ⟨r, rest, hreq, -, rfl⟩
  · exact hs
  · exact exec_host_inv (isHost_of_hostOnly hs.host hreq hdec) (hs.accept hreq) hexec
  · obtain ⟨hhost, hbase, hframe, hlatch⟩ := hs.accept hreq
    exact ⟨hhost, { hbase with }, { hframe with }, { hlatch with }⟩

end Sys2Proof.Machine
end

section
/-! PROOFS. Who writes what (R22, R23, R30, R37, R140), and what the host reads (R40 to R42, R250). -/

namespace Sys2Proof.Machine

open Sys2Proof

/-- Settles O10: the first arm of the step. -/
theorem idleStepChangesNothing : Obligations.IdleStepChangesNothing := by
  intro s hreq
  simp only [step, hreq]

/-! ### CHIP_OK, BAND and DRV_STATE (R22, R23, R140) -/

/-- Only INIT writes `CHIP_OK` and `BAND`. -/
theorem exec_chipStatus_of_not_init {i : Instr} {s t : State} (hi : ∀ b, i ≠ .init b) (h : exec i s = .next t) :
    t.u1.chipOk = s.u1.chipOk ∧ t.u1.band = s.u1.band := by
  by_cases hpoll : i = .poll
  · subst hpoll
    cases execPoll_step h <;> exact ⟨rfl, rfl⟩
  · obtain ⟨m, n, hu1⟩ := exec_u1_of_not_init_poll hi hpoll h
    rw [hu1]
    exact ⟨rfl, rfl⟩

/-- Settles O19: a step that is no INIT keeps both; an INIT writes its operand to `BAND`. -/
theorem chipStatusOnlyByInit : Obligations.ChipStatusOnlyByInit := by
  intro s t h hchange
  rcases step_cases h with ⟨-, rfl⟩ | ⟨r, rest, i, hreq, hdec, hexec⟩ | ⟨r, rest, -, -, rfl⟩
  · simp at hchange
  · by_cases hi : ∀ b, i ≠ .init b
    · obtain ⟨hchip, hband⟩ := exec_chipStatus_of_not_init hi hexec
      exact (hchange.elim (absurd hchip) (absurd hband))
    · obtain ⟨b, hb⟩ := not_forall_not.mp hi
      subst hb
      refine ⟨r, rest, b, hreq, hdec, ?_⟩
      cases execInit_step hexec <;> rfl
  · simp at hchange

theorem InitStep.drvState {b : BitVec 1} {s t : State} (h : InitStep b s t) :
    (s.nextAnswer = s.cfg.probeExpect → t.u1.chipOk = true ∧ t.u1.drvState = .armed) ∧
      (s.nextAnswer ≠ s.cfg.probeExpect → t.u1.chipOk = false ∧ t.u1.drvState = .idle) := by
  cases h with
  | found hp => exact ⟨fun _ => ⟨rfl, rfl⟩, fun hn => absurd hp hn⟩
  | missing hn => exact ⟨fun hp => absurd hp hn, fun _ => ⟨rfl, rfl⟩⟩

theorem PollStep.drvState {s t : State} (h : PollStep s t) :
    let a := s.answerAt s.inp.ansPos
    let b := s.answerAt (s.inp.ansPos + 1)
    t.u1.chipOk = s.u1.chipOk ∧
    (occOverflow s.cfg a = true → t.u1.drvState = .armed) ∧
    (occOverflow s.cfg a = false → occCount s.cfg a = 0 → t.u1.drvState = s.u1.drvState) ∧
    (occOverflow s.cfg a = false → occCount s.cfg a ≠ 0 →
      (occOverflow s.cfg b = true → t.u1.drvState = .armed) ∧
      (occOverflow s.cfg b = false → occCount s.cfg b = 0 → t.u1.drvState = s.u1.drvState) ∧
      (occOverflow s.cfg b = false → occCount s.cfg b ≠ 0 → t.u1.drvState = .armed)) := by
  cases h with
  | overflow hovf => simp [hovf]
  | empty hovf hcnt => simp [hovf, hcnt]
  | overflowSettled hovf hcnt hovf2 => simp [hovf, hcnt, hovf2]
  | emptySettled hovf hcnt hovf2 hcnt2 => simp [hovf, hcnt, hovf2, hcnt2]
  | packet hovf hcnt hovf2 hcnt2 => simp [hovf, hcnt, hovf2, hcnt2]

theorem exec_drvState_of_not_init_poll {i : Instr} {s t : State} (hinit : ∀ b, i ≠ .init b) (hpoll : i ≠ .poll)
    (h : exec i s = .next t) : t.u1.drvState = s.u1.drvState := by
  obtain ⟨m, n, hu1⟩ := exec_u1_of_not_init_poll hinit hpoll h
  rw [hu1]

/-- Settles O20: the cases of INIT and of POLL, and that no other instruction writes `DRV_STATE`. -/
theorem drvStateTransitions : Obligations.DrvStateTransitions := by
  refine ⟨rfl, ?_, ?_⟩
  · intro i s t h
    cases i with
    | init b => exact (execInit_step h).drvState
    | poll => exact (execPoll_step h).drvState
    | _ => exact exec_drvState_of_not_init_poll (by nofun) (by nofun) h
  · intro s t r rest hreq hdec h
    rw [step_of_rejected hreq hdec] at h
    cases h
    rfl

/-! ### The result latches (R30, R37) -/

/-- A step leaves the weather latches and the warning, or it is an accepted DECODE. -/
theorem step_weather_cases {s t : State} (h : step s = .next t) :
    (t.u2.reading = s.u2.reading ∧ t.u2.familyWarn = s.u2.familyWarn) ∨
    ∃ r rest, s.inp.requests = r :: rest ∧ r.word = .host 0x3000#16 ∧ 17 ≤ s.u1.rxlen.val ∧
      packetCrc s = packetLast s ∧
      t.u2.reading = wxReadingOf s.cfg s.u1.rxbuf s.u1.rxlen.val (s.accept r rest).sampleNow ∧
      t.u2.familyWarn = familyWarnOf s.cfg (Memory.read s.u1.rxbuf 0) ∧ t.out.rsp.map (·.code) = some .ok := by
  rcases step_cases h with ⟨-, rfl⟩ | ⟨r, rest, i, hreq, hdec, hexec⟩ | ⟨r, rest, -, -, rfl⟩
  · exact .inl ⟨rfl, rfl⟩
  · by_cases hi : i = .decode
    · subst hi
      have hword : r.word = .host 0x3000#16 := eq_encode_of_decode_host rfl hdec
      cases execDecode_step hexec with
      | short | mismatch => exact .inl ⟨rfl, rfl⟩
      | accepted hlen hcrc => exact .inr ⟨r, rest, hreq, hword, hlen, hcrc, rfl, rfl, rfl⟩
    · obtain ⟨c, hu2⟩ := exec_u2_of_not_decode hi hexec
      rw [hu2]
      exact .inl ⟨rfl, rfl⟩
  · exact .inl ⟨rfl, rfl⟩

/-- Settles O21: a change is an accepted DECODE, whose reading is valid; without one the flag stays. -/
theorem weatherLatchesOnlyByAcceptedDecode : Obligations.WeatherLatchesOnlyByAcceptedDecode := by
  intro s t h
  rcases step_weather_cases h with ⟨hread, hwarn⟩ | ⟨r, rest, hreq, hword, hlen, hcrc, hread, hwarn, hrsp⟩
  · exact ⟨fun hchange => hchange.elim (absurd hread) (absurd hwarn), fun hvalid => by rw [hread, hvalid]⟩
  · have hvalid : t.u2.reading.valid = true := by rw [hread]; rfl
    exact ⟨fun _ => ⟨r, rest, hreq, hword, hlen, hcrc, hread, hwarn, hvalid, hrsp⟩, fun _ => hvalid⟩

/-- A step leaves the particulate latches, or it is the PUSH that completes a valid frame. -/
theorem step_particulate_cases {s t : State} (h : step s = .next t) :
    t.u3.reading = s.u3.reading ∨
    ∃ r rest d, s.inp.requests = r :: rest ∧ r.word = .host (0x40#8 ++ d) ∧ s.u3.syncState = .acc ∧
      s.u3.cur.val = 31 ∧ s.sum16 = be16 (Memory.write s.u3.fbuf 31 d) 30 ∧
      t.u3.reading = pmReadingOf s.cfg (Memory.write s.u3.fbuf 31 d) (s.accept r rest).sampleNow ∧
      t.out.rsp.map (·.code) = some .ok := by
  rcases step_cases h with ⟨-, rfl⟩ | ⟨r, rest, i, hreq, hdec, hexec⟩ | ⟨r, rest, -, -, rfl⟩
  · exact .inl rfl
  · by_cases hi : ∀ d, i ≠ .push d
    · rw [exec_u3_of_not_push hi hexec]
      exact .inl rfl
    · obtain ⟨d, hd⟩ := not_forall_not.mp hi
      subst hd
      have hword : r.word = .host (0x40#8 ++ d) := eq_encode_of_decode_host rfl hdec
      cases execPush_step hexec with
      | valid hsync hcur hsum => exact .inr ⟨r, rest, d, hreq, hword, hsync, hcur, hsum, rfl, rfl⟩
      | _ => exact .inl rfl
  · exact .inl rfl

/-- The last two bytes of a frame, the very last one just stored, as a number (R218). -/
theorem be16_write_last {m : Memory} (d : Byte) (hm : Memory.wf 32 m = true) :
    (be16 (Memory.write m 31 d) 30).toNat = (Memory.read m 30).toNat * 256 + d.toNat := by
  rw [be16_toNat, Memory.read_write hm, Memory.read_write hm, if_neg (by decide), if_pos rfl]

/-- Settles O22: a change is the PUSH of a valid frame's last byte, whose reading is valid; without one the flag
stays. -/
theorem particulateLatchesOnlyByValidFrame : Obligations.ParticulateLatchesOnlyByValidFrame := by
  intro s t hwf h
  rcases step_particulate_cases h with hread | ⟨r, rest, d, hreq, hword, hsync, hcur, hsum, hread, hrsp⟩
  · exact ⟨absurd hread, fun hvalid => by rw [hread, hvalid]⟩
  · have hvalid : t.u3.reading.valid = true := by rw [hread]; rfl
    have hsum : s.sum16.toNat = (Memory.read s.u3.fbuf 30).toNat * 256 + d.toNat := by
      rw [hsum, be16_write_last d hwf]
    exact ⟨fun _ => ⟨r, rest, d, hreq, hword, hsync, hcur, hsum, hread, hvalid, hrsp⟩, fun _ => hvalid⟩

/-! ### The host registers (R40 to R42, R250) -/

theorem regOf_regNum : ∀ g, regOf (regNum g) = some g := by
  intro g
  cases g <;> rfl

/-- The unimplemented numbers of R42. -/
theorem regOf_eq_none : ∀ r : Byte,
    (0x07 ≤ r.toNat ∧ r.toNat ≤ 0x0F) ∨ (0x1A ≤ r.toNat ∧ r.toNat ≤ 0x1F) ∨ 0x2A ≤ r.toNat → regOf r = none := by
  decide +kernel

theorem exec_rd_regNum (g : HostReg) (s : State) :
    exec (.rd (regNum g)) s = .next (s.respond .ok (regValue s g)) := by
  simp only [exec, execRd, regOf_regNum]

theorem exec_rd_unimplemented {r : Byte} (hr : regOf r = none) (s : State) :
    exec (.rd r) s = .next (s.respond .eRange 0) := by
  simp only [exec, execRd, hr]

theorem ite_eq_zeroExtend_ofBool (b : Bool) : (if b = true then 1#32 else 0#32) = (BitVec.ofBool b).zeroExtend 32 := by
  cases b <;> rfl

/-- Settles O58: the list is that of the implemented registers, each with its number and its value. -/
theorem rdReturnsRegisters : Obligations.RdReturnsRegisters := by
  refine fun s => ⟨fun p hp => ?_, fun r hr => exec_rd_unimplemented (regOf_eq_none r hr) s⟩
  rw [ite_eq_zeroExtend_ofBool] at hp
  have hmem : p ∈ allRegs.map fun g => (regNum g, regValue s g) := hp
  obtain ⟨g, -, rfl⟩ := List.mem_map.mp hmem
  exact exec_rd_regNum g s

/-! ### STATUS (R41) -/

/-- Bit `k` of STATUS, by the field it lies in, the lowest field first (R41). -/
theorem getLsbD_statusWord (s : State) (k : Nat) :
    (statusWord s).getLsbD k =
      if k < 1 then (BitVec.ofBool s.u1.chipOk).getLsbD k
      else if k - 1 < 1 then (BitVec.ofBool s.u2.reading.valid).getLsbD (k - 1)
      else if k - 2 < 1 then (BitVec.ofBool s.u3.reading.valid).getLsbD (k - 2)
      else if k - 3 < 1 then (BitVec.ofBool s.u2.familyWarn).getLsbD (k - 3)
      else if k - 4 < 1 then s.u1.band.getLsbD (k - 4)
      else if k - 5 < 2 then (drvNum s.u1.drvState).getLsbD (k - 5)
      else if k - 7 < 1 then false
      else if k - 8 < 2 then (syncNum s.u3.syncState).getLsbD (k - 8)
      else false := by
  unfold statusWord
  simp only [BitVec.getLsbD_append]
  simp only [Nat.sub_sub, Nat.reduceAdd, BitVec.getLsbD_zero]

/-- A field of a word is known by its bits. -/
theorem extractLsb'_eq_of_getLsbD {m n lo : Nat} {w : BitVec m} {x : BitVec n}
    (h : ∀ i < n, w.getLsbD (lo + i) = x.getLsbD i) : w.extractLsb' lo n = x := by
  ext i hi
  rw [BitVec.getElem_extractLsb', h i hi, BitVec.getLsbD_eq_getElem hi]

theorem statusWord_band (s : State) : (statusWord s).extractLsb' 4 1 = s.u1.band :=
  extractLsb'_eq_of_getLsbD fun i hi => by
    rw [getLsbD_statusWord]
    interval_cases i
    rfl

theorem statusWord_drvState (s : State) : (statusWord s).extractLsb' 5 2 = drvNum s.u1.drvState :=
  extractLsb'_eq_of_getLsbD fun i hi => by
    rw [getLsbD_statusWord]
    interval_cases i <;> rfl

theorem statusWord_syncState (s : State) : (statusWord s).extractLsb' 8 2 = syncNum s.u3.syncState :=
  extractLsb'_eq_of_getLsbD fun i hi => by
    rw [getLsbD_statusWord]
    interval_cases i <;> rfl

theorem statusWord_reserved (s : State) {k : Nat} (hk : 10 ≤ k) : (statusWord s).getLsbD k = false := by
  rw [getLsbD_statusWord]
  iterate 8 rw [if_neg (by omega)]

/-- Settles O59: the flags are single bits, the others are fields. -/
theorem statusFields : Obligations.StatusFields := by
  intro s
  have hflag : ∀ b, (BitVec.ofBool b).getLsbD 0 = b := by decide
  exact ⟨(getLsbD_statusWord s 0).trans (hflag _), (getLsbD_statusWord s 1).trans (hflag _),
    (getLsbD_statusWord s 2).trans (hflag _), (getLsbD_statusWord s 3).trans (hflag _), statusWord_band s,
    statusWord_drvState s, getLsbD_statusWord s 7, statusWord_syncState s, fun _ => statusWord_reserved s⟩

end Sys2Proof.Machine
end

section
/-! PROOFS. The configuration stays (R82), a bus burst alone (R123), and what a POLL that returned a packet leaves of
the reference chip (R74, R131). -/

namespace Sys2Proof.Machine

open Sys2Proof

/-! ### The configuration (R82) -/

/-- No instruction writes the configuration. -/
theorem exec_cfg {i : Instr} {s t : State} (h : exec i s = .next t) : t.cfg = s.cfg := by
  cases exec_step h with
  | init h => cases h <;> rfl
  | poll h => cases h <;> rfl
  | decode h => cases h <;> rfl
  | push h => cases h <;> rfl
  | access | event | sum | crc => rfl

/-- Settles O18: neither taking a request, nor an instruction, nor answering a reserved word writes it. -/
theorem configurationNeverChanges : Obligations.ConfigurationNeverChanges := by
  intro s t h
  rcases step_cases h with ⟨-, rfl⟩ | ⟨r, rest, i, -, -, hexec⟩ | ⟨r, rest, -, -, rfl⟩
  · rfl
  · rw [exec_cfg hexec, State.accept_cfg]
  · rfl

/-! ### A burst alone (R123) -/

theorem burstLengthOk_iff (n : Byte) : burstLengthOk n = true ↔ 1 ≤ n.toNat ∧ n.toNat ≤ 80 := by
  simp only [burstLengthOk, Bool.and_eq_true, decide_eq_true_eq]

theorem exec_rburst_of_lengthOk {a n : Byte} (hn : burstLengthOk n = true) (s : State) :
    exec (.rburst a n) s = .next (s.perform (.rburst a n)) :=
  if_pos hn

/-- Settles O27: the burst is performed, and its answer is the next bytes of the answer stream. -/
theorem burstReadsItsLength : Obligations.BurstReadsItsLength := by
  intro s a n hlo hhi
  exact ⟨s.answerBytes n.toNat, s.answerBytes_length _, fun _ => State.answerBytes_getElem?,
    exec_rburst_of_lengthOk ((burstLengthOk_iff n).mpr ⟨hlo, hhi⟩) s⟩

/-! ### The events of a POLL that returns a packet (R155, R158) -/

/-- POLL's state after its second occupancy read. -/
def State.pollReads (s : State) : State :=
  (((s.setRxLen 0).perform (.rreg s.cfg.occAddr)).perform (.wait 10#8)).perform (.rreg s.cfg.occAddr)

theorem State.pollReads_eq (s : State) :
    s.pollReads =
      { s with
        u1 := { s.u1 with rxlen := 0 }
        inp := { s.inp with ansPos := s.inp.ansPos + 2 }
        out := { s.out with
          trace := s.out.trace ++
            [⟨.rreg s.cfg.occAddr, [s.answerAt s.inp.ansPos]⟩, ⟨.wait 10#8, []⟩,
             ⟨.rreg s.cfg.occAddr, [s.answerAt (s.inp.ansPos + 1)]⟩] } } := by
  simp only [State.pollReads, State.perform, answerLen, State.answerBytes_one, State.answerBytes_zero,
    List.append_assoc, List.cons_append, List.nil_append]
  rfl

/-- With a count on both occupancy reads and no overflow, POLL reads the bytes of the second count. -/
theorem execPoll_packet {s : State} (hovf : occOverflow s.cfg (s.answerAt s.inp.ansPos) = false)
    (hcnt : occCount s.cfg (s.answerAt s.inp.ansPos) ≠ 0)
    (hovf2 : occOverflow s.cfg (s.answerAt (s.inp.ansPos + 1)) = false)
    (hcnt2 : occCount s.cfg (s.answerAt (s.inp.ansPos + 1)) ≠ 0) :
    execPoll s = .next (pollDrain (burstLen (occCount s.cfg (s.answerAt (s.inp.ansPos + 1)))) s.pollReads) := by
  have hfirst : execPoll s = .next (pollSecond ((s.setRxLen 0).perform (.rreg s.cfg.occAddr))) :=
    congrArg Host.Outcome.next ((if_neg (ne_true_of_eq_false hovf)).trans (if_neg hcnt))
  rw [hfirst]
  exact congrArg Host.Outcome.next ((if_neg (ne_true_of_eq_false hovf2)).trans (if_neg hcnt2))

/-- POLL returns OK only with a count on both occupancy reads and no overflow. -/
theorem PollStep.occupancy_of_ok {s t : State} (h : PollStep s t) (hok : t.out.rsp.map (·.code) = some .ok) :
    occOverflow s.cfg (s.answerAt s.inp.ansPos) = false ∧ occCount s.cfg (s.answerAt s.inp.ansPos) ≠ 0 ∧
      occOverflow s.cfg (s.answerAt (s.inp.ansPos + 1)) = false ∧
      occCount s.cfg (s.answerAt (s.inp.ansPos + 1)) ≠ 0 := by
  cases h with
  | packet hovf hcnt hovf2 hcnt2 => exact ⟨hovf, hcnt, hovf2, hcnt2⟩
  | overflow | empty | overflowSettled | emptySettled => cases hok

/-- The last two events of a POLL that returned a packet are the re-arm pair (R131). -/
theorem execPoll_ok_trace {s t : State} (h : execPoll s = .next t) (hok : t.out.rsp.map (·.code) = some .ok) :
    ∃ before, t.out.trace = s.out.trace ++
      (before ++ [⟨.strobe s.cfg.strobeFlushRx, []⟩, ⟨.strobe s.cfg.strobeEnterRx, []⟩]) := by
  obtain ⟨hovf, hcnt, hovf2, hcnt2⟩ := (execPoll_step h).occupancy_of_ok hok
  rw [execPoll_packet hovf hcnt hovf2 hcnt2, pollDrain_eq, State.pollReads_eq] at h
  cases h
  exact ⟨[_, _, _, _], List.append_assoc ..⟩

/-! ### The reference chip (R74) -/

/-- A chip that does not listen takes no radio byte. -/
theorem chipRadioAll_of_not_listening (cap : Nat) {k : Chip} (hk : k.listening = false) :
    ∀ bs, chipRadioAll cap bs k = k
  | [] => rfl
  | b :: bs => by
    have hradio : chipRadio cap b k = k := by simp [chipRadio, hk]
    rw [chipRadioAll, hradio, chipRadioAll_of_not_listening cap hk bs]

/-- A replay ends with the replay of the last events, from some chip state. -/
theorem chipReplay_zip_append {c : Cfg} {cap : Nat} {after : List BusRecord} {k' : Chip} :
    ∀ {before : List BusRecord} {air : List (List Byte)} {k : Chip}, air.length = (before ++ after).length →
      chipReplay c cap (air.zip (before ++ after)) k = some k' →
      ∃ (lastAir : List (List Byte)) (k1 : Chip), lastAir.length = after.length ∧
        chipReplay c cap (lastAir.zip after) k1 = some k'
  | [], air, k, hlen, h => ⟨air, k, hlen, h⟩
  | e :: before, [], k, hlen, h => nomatch hlen
  | e :: before, bs :: air, k, hlen, h => by
    simp only [List.cons_append, List.zip_cons_cons, chipReplay] at h
    split at h
    · exact chipReplay_zip_append (Nat.succ.inj hlen :) h
    · cases h

/-- The flush empties the chip and stops it listening, so that no radio byte gets in before the second strobe. -/
theorem chipReplay_rearm {c : Cfg} (hc : c.strobesWf = true) (cap : Nat) (air1 air2 : List Byte) (k : Chip) :
    chipReplay c cap [(air1, ⟨.strobe c.strobeFlushRx, []⟩), (air2, ⟨.strobe c.strobeEnterRx, []⟩)] k =
      some { chipRadioAll cap air1 k with fifo := [], ovf := false, listening := true } := by
  have hne : c.strobeEnterRx ≠ c.strobeFlushRx := (bne_iff_ne.mp hc).symm
  simp [chipReplay, chipAnswer, chipAfter, chipRadioAll_of_not_listening, hne]

/-- Settles O36: the events end with the re-arm pair, and from any chip state the pair leaves the chip so. -/
theorem pollLeavesChipSimListening : Obligations.PollLeavesChipSimListening := by
  intro s t evs air cap k k' hstrobes hexec hok htrace hlen hreplay
  obtain ⟨before, hbefore⟩ := execPoll_ok_trace hexec hok
  obtain rfl := List.append_cancel_left (htrace.symm.trans hbefore)
  obtain ⟨lastAir, k1, hlast, hend⟩ := chipReplay_zip_append hlen hreplay
  obtain ⟨air1, air2, rfl⟩ := List.length_eq_two.mp hlast
  obtain rfl := Option.some.inj ((chipReplay_rearm hstrobes cap air1 air2 k1).symm.trans hend)
  exact ⟨rfl, rfl, rfl⟩

end Sys2Proof.Machine
end

section
/-! PROOFS. The encodings of spec/30_encoding.md: the decoder undoes the encoder and the encoder the decoder, and the
rows of the opcode tables (R92, R99, R101). -/

namespace Sys2Proof.Machine

open Sys2Proof

/-! ### The decoder undoes the encoder (R91 to R93, R98 to R101) -/

theorem decode_encode (i : Instr) : decode (encode i) = .instr i := by
  cases i with
  | init b => revert b; decide
  | poll | decode | clrbuf | sumHold | sumClr | crcHold | crcClr => rfl
  | push d | rd d | rdbuf d | ldbuf d => simp [encode, decode, decodeHost]
  | wreg a d | rreg a | rburst a d | strobe a | wait d => simp [encode, decode, decodeBus]
  | sumAdd d | sumLoad d => simp [encode, decode, decodeSum]
  | crcByte d | crcLoad d => simp [encode, decode, decodeCrc]

/-- Settles O1: one instruction at a time, by the fields of its word. -/
theorem decodeEncodeRoundTrip : Obligations.DecodeEncodeRoundTrip :=
  decode_encode

/-! ### The encoder undoes the decoder -/

/-- A word with the fields of a bus event is that event's word (R98). -/
theorem bWord_eq {w : BitVec 20} {k : BitVec 4} {a d : Byte} (hk : kindField w = k) (ha : aField w = a)
    (hd : dField w = d) : bWord k a d = w := by
  rw [← hk, ← ha, ← hd]
  exact bWord_of_fields w

/-- The bus port's decoder reads an event from that event's word only. -/
theorem encode_of_decodeBus {w : BitVec 20} {i : Instr} (h : decodeBus w = .instr i) : encode i = .bus w := by
  revert h
  fun_cases decodeBus w with
  | case3 | case6 | case8 | case9 => exact nofun
  | case1 hk | case4 _ _ hk =>
    rintro ⟨⟩
    exact congrArg PortWord.bus (bWord_eq hk rfl rfl)
  | case2 _ hk hd | case5 _ _ _ hk hd =>
    rintro ⟨⟩
    exact congrArg PortWord.bus (bWord_eq hk rfl hd)
  | case7 _ _ _ _ hk ha =>
    rintro ⟨⟩
    exact congrArg PortWord.bus (bWord_eq hk ha rfl)

/-- A word is made of its `clr`, `en` and `d` fields (R100). -/
theorem kWord_of_fields (w : BitVec 10) :
    kWord (BitVec.ofBool (w.getLsbD 9)) (BitVec.ofBool (w.getLsbD 8)) (w.extractLsb' 0 8) = w := by
  revert w
  decide +kernel

/-- The row of a K-format word is that of its `clr` and `en` (R101). -/
theorem kWord_row_of_bits (w : BitVec 10) :
    w &&& 0x300#10 = kWord (BitVec.ofBool (w.getLsbD 9)) (BitVec.ofBool (w.getLsbD 8)) 0x00#8 := by
  rw [← Laws.kWord_row _ _ (w.extractLsb' 0 8), kWord_of_fields]

theorem ofBool_of_not {b : Bool} (h : ¬ b = true) : BitVec.ofBool b = 0#1 := by
  rw [eq_false_of_ne_true h]
  rfl

/-- What counts of a K-format word: its low eight bits are ignored unless `en` is 1 (R100). -/
def significant (w : BitVec 10) : BitVec 10 := if w.getLsbD 8 then w else w &&& 0x300#10

theorem kWord_of_en {w : BitVec 10} {c : BitVec 1} (hc : BitVec.ofBool (w.getLsbD 9) = c) (he : w.getLsbD 8 = true) :
    kWord c 1#1 (w.extractLsb' 0 8) = significant w := by
  have hw := kWord_of_fields w
  rw [hc, he] at hw
  rw [significant, if_pos he]
  exact hw

theorem kWord_of_not_en {w : BitVec 10} {c : BitVec 1} (hc : BitVec.ofBool (w.getLsbD 9) = c)
    (he : ¬ w.getLsbD 8 = true) : kWord c 0#1 0x00#8 = significant w := by
  rw [significant, if_neg he, kWord_row_of_bits, hc, ofBool_of_not he]

theorem encode_of_decodeSum {w : BitVec 10} {i : Instr} (h : decodeSum w = .instr i) :
    encode i = .sum (significant w) := by
  revert h
  fun_cases decodeSum w with
  | case1 d hc he => rintro ⟨⟩; exact congrArg PortWord.sum (kWord_of_en (congrArg BitVec.ofBool hc) he)
  | case2 hc he => rintro ⟨⟩; exact congrArg PortWord.sum (kWord_of_not_en (congrArg BitVec.ofBool hc) he)
  | case3 d hc he => rintro ⟨⟩; exact congrArg PortWord.sum (kWord_of_en (ofBool_of_not hc) he)
  | case4 hc he => rintro ⟨⟩; exact congrArg PortWord.sum (kWord_of_not_en (ofBool_of_not hc) he)

theorem encode_of_decodeCrc {w : BitVec 10} {i : Instr} (h : decodeCrc w = .instr i) :
    encode i = .crc (significant w) := by
  revert h
  fun_cases decodeCrc w with
  | case1 d hc he => rintro ⟨⟩; exact congrArg PortWord.crc (kWord_of_en (congrArg BitVec.ofBool hc) he)
  | case2 hc he => rintro ⟨⟩; exact congrArg PortWord.crc (kWord_of_not_en (congrArg BitVec.ofBool hc) he)
  | case3 d hc he => rintro ⟨⟩; exact congrArg PortWord.crc (kWord_of_en (ofBool_of_not hc) he)
  | case4 hc he => rintro ⟨⟩; exact congrArg PortWord.crc (kWord_of_not_en (ofBool_of_not hc) he)

/-- Settles O2: port by port, each word from its fields. -/
theorem decodedWordsEncodeBack : Obligations.DecodedWordsEncodeBack := by
  intro p i h
  cases p with
  | host w => exact encode_of_decodeHost h
  | bus w => exact encode_of_decodeBus h
  | sum w => exact encode_of_decodeSum h
  | crc w => exact encode_of_decodeCrc h

/-! ### The rows of the host port (R92) -/

theorem zField_opField_of_row {w : BitVec 16} {op : BitVec 4} (h : w &&& 0xFF00#16 = hWord op 0x00#8) :
    zField w = 0x0#4 ∧ opField w = op := by
  constructor
  · rw [← and_allOnes4 (zField w), ← zField_hWord op 0x00#8]
    exact extract_of_and h 8 4
  · rw [← and_allOnes4 (opField w), ← opField_hWord op 0x00#8]
    exact extract_of_and h 12 4

/-- A word that matches a row with a free operand is made of the row's `op` and its own operand. -/
theorem eq_hWord_of_row {w : BitVec 16} {op : BitVec 4} (h : w &&& 0xFF00#16 = hWord op 0x00#8) :
    w = hWord op (immField w) := by
  obtain ⟨hz, hop⟩ := zField_opField_of_row h
  rw [← hop, hWord_of_fields hz]

/-- A word that matches INIT's row is an INIT with the word's lowest bit (R93). -/
theorem eq_hWord_of_initRow {w : BitVec 16} (h : w &&& 0xFFFE#16 = 0x1000#16) :
    w = hWord 0x1#4 (0#7 ++ w.extractLsb' 0 1) := by
  have hrow : w &&& 0xFF00#16 = hWord 0x1#4 0x00#8 := by
    rw [show 0xFF00#16 = 0xFFFE#16 &&& 0xFF00#16 by decide, ← BitVec.and_assoc, h]
    decide
  have himm : (immField w).extractLsb' 1 7 = 0#7 := by
    have hmask := extract_of_and (extract_of_and h 0 8) 1 7
    rwa [show ((0xFFFE#16).extractLsb' 0 8).extractLsb' 1 7 = BitVec.allOnes 7 by decide, BitVec.and_allOnes] at hmask
  have hlow : (immField w).extractLsb' 0 1 = w.extractLsb' 0 1 := by
    ext i hi
    simp [immField]
  rw [← hlow, zero_append_lowest_bit _ himm, ← eq_hWord_of_row hrow]

/-- A word that matches a row without operands is the row's own. -/
theorem eq_of_fullRow {w p : BitVec 16} (h : w &&& 0xFFFF#16 = p) : w = p := by
  rwa [show 0xFFFF#16 = BitVec.allOnes 16 by decide, BitVec.and_allOnes] at h

/-- Two rows that match one word agree where both masks look. -/
theorem Row.pat_and_mask_eq {n : Nat} {r r' : Row n} {w : BitVec n} (h : r.matches w = true)
    (h' : r'.matches w = true) : r.pat &&& r'.mask = r'.pat &&& r.mask := by
  rw [← beq_iff_eq.mp h, ← beq_iff_eq.mp h']
  ac_rfl

/-- The rows of R92 differ where both masks look. -/
theorem hostRows_disjoint :
    ∀ r ∈ hostRows, ∀ r' ∈ hostRows, r.pat &&& r'.mask = r'.pat &&& r.mask → r = r' := by
  decide

/-- Settles O3: a word that matches a row is the encoding of the row's command. -/
theorem hostDecodeFollowsTable : Obligations.HostDecodeFollowsTable := by
  refine ⟨fun w => ?_, fun _ r r' hr hr' h h' => hostRows_disjoint r hr r' hr' (Row.pat_and_mask_eq h h')⟩
  have hdec : ∀ {w' : BitVec 16} {i : Instr}, encode i = .host w' → w = w' → decode (.host w) = .instr i :=
    fun hi hw => hw ▸ hi ▸ decode_encode _
  exact
    ⟨fun h => hdec rfl (eq_hWord_of_initRow h),
      fun h => hdec rfl (eq_of_fullRow h),
      fun h => hdec rfl (eq_of_fullRow h),
      fun h => hdec rfl (eq_hWord_of_row h),
      fun h => hdec rfl (eq_hWord_of_row h),
      fun h => hdec rfl (eq_hWord_of_row h),
      fun h => hdec rfl (eq_hWord_of_row h),
      fun h => hdec rfl (eq_of_fullRow h)⟩

/-! ### The rows of the bus port (R99) -/

theorem bWord_inj {k k' : BitVec 4} {a d a' d' : Byte} (h : bWord k a d = bWord k' a' d') :
    k = k' ∧ a = a' ∧ d = d' :=
  ⟨by simpa using congrArg kindField h, by simpa using congrArg aField h, by simpa using congrArg dField h⟩

/-- The rows WREG and RBURST: two free operands. -/
theorem eq_bWord_of_row {w : BitVec 20} {k : BitVec 4} (h : w &&& 0xF0000#20 = bWord k 0x00#8 0x00#8) :
    w = bWord k (aField w) (dField w) := by
  rw [← bWord_of_fields w, Laws.bWord_row] at h
  rw [← (bWord_inj h).1, bWord_of_fields]

/-- The rows RREG and STROBE: `d` is zero. -/
theorem eq_bWord_of_row_d {w : BitVec 20} {k : BitVec 4} (h : w &&& 0xF00FF#20 = bWord k 0x00#8 0x00#8) :
    w = bWord k (aField w) 0x00#8 := by
  rw [← bWord_of_fields w, Laws.bWord_row_d] at h
  obtain ⟨hk, -, hd⟩ := bWord_inj h
  rw [← hk, ← hd, bWord_of_fields]

/-- The row WAIT: `a` is zero. -/
theorem eq_bWord_of_row_a {w : BitVec 20} {k : BitVec 4} (h : w &&& 0xFFF00#20 = bWord k 0x00#8 0x00#8) :
    w = bWord k 0x00#8 (dField w) := by
  rw [← bWord_of_fields w, Laws.bWord_row_a] at h
  obtain ⟨hk, ha, -⟩ := bWord_inj h
  rw [← hk, ← ha, bWord_of_fields]

/-- Settles O4: a word that matches a row is the encoding of the row's event. -/
theorem busDecodeFollowsTable : Obligations.BusDecodeFollowsTable := by
  intro w
  have hdec : ∀ {w' : BitVec 20} {i : Instr}, encode i = .bus w' → w = w' → decode (.bus w) = .instr i :=
    fun hi hw => hw ▸ hi ▸ decode_encode _
  exact
    ⟨fun h => hdec rfl (eq_bWord_of_row h),
      fun h => hdec rfl (eq_bWord_of_row_d h),
      fun h => hdec rfl (eq_bWord_of_row h),
      fun h => hdec rfl (eq_bWord_of_row_d h),
      fun h => hdec rfl (eq_bWord_of_row_a h)⟩

/-! ### The rows of the two internal ports (R101) -/

/-- A word that matches a row is made of the row's `clr` and `en` and its own operand. -/
theorem eq_kWord_of_row {w : BitVec 10} {c e : BitVec 1} (h : w &&& 0x300#10 = kWord c e 0x00#8) :
    w = kWord c e (w.extractLsb' 0 8) := by
  have hinj : ∀ c e c' e' : BitVec 1, kWord c e 0x00#8 = kWord c' e' 0x00#8 → c = c' ∧ e = e' := by decide
  obtain ⟨hc, he⟩ := hinj _ _ _ _ ((kWord_row_of_bits w).symm.trans h)
  rw [← hc, ← he, kWord_of_fields]

/-- Every word matches the row of its own `clr` and `en`. -/
theorem exists_kRow (w : BitVec 10) : ∃ r ∈ kRows, r.matches w = true := by
  have hrows : ∀ c e : BitVec 1, (⟨kWord c e 0x00#8, 0x300#10⟩ : Row 10) ∈ kRows := by decide
  exact ⟨_, hrows _ _, beq_iff_eq.mpr (kWord_row_of_bits w)⟩

/-- Settles O5: a word that matches a row has the row's `clr` and `en`, which is all that both decoders look at. -/
theorem microDecodeFollowsTable : Obligations.MicroDecodeFollowsTable := by
  refine fun w => ⟨fun h => ?_, fun h => ?_, fun h => ?_, fun h => ?_, exists_kRow w⟩
  · rw [eq_kWord_of_row (c := 0#1) (e := 0#1) h]
    simp [decode, decodeSum, decodeCrc]
  · rw [eq_kWord_of_row (c := 0#1) (e := 1#1) h]
    simp [decode, decodeSum, decodeCrc]
  · rw [eq_kWord_of_row (c := 1#1) (e := 0#1) h]
    simp [decode, decodeSum, decodeCrc]
  · rw [eq_kWord_of_row (c := 1#1) (e := 1#1) h]
    simp [decode, decodeSum, decodeCrc]

/-! ### Written-out words and the layout of the B-format (R98, R121 to R125) -/

/-- Settles O7: the decoder runs on each word. -/
theorem writtenOutWordsDecode : Obligations.WrittenOutWordsDecode := by
  unfold Obligations.WrittenOutWordsDecode
  decide

theorem encode_instr (e : BusEvent) : encode e.instr = .bus e.word := by
  cases e <;> rfl

/-- Settles O8: each word is a `bWord` of its kind and operands. -/
theorem busWordLayout : Obligations.BusWordLayout :=
  ⟨fun _ _ => bWord_toNat .., fun _ => bWord_toNat .., fun _ _ => bWord_toNat .., fun _ => bWord_toNat ..,
    fun _ => by simp [BusEvent.word, bWord_toNat], encode_instr⟩

end Sys2Proof.Machine
end

section
/-! PROOFS. The words of no row: a reserved command is answered (R104), an undefined bus word is refused (R105). -/

namespace Sys2Proof.Machine

open Sys2Proof

/-! ### The reserved commands (R104) -/

/-- Every instruction's word matches a row of its port's table. -/
theorem rowWord (i : Instr) : Laws.RowWord.Statement i :=
  match i with
  | .init b => Laws.RowWord.init b
  | .poll => Laws.RowWord.poll
  | .decode => Laws.RowWord.decode
  | .push d => Laws.RowWord.push d
  | .rd r => Laws.RowWord.rd r
  | .rdbuf k => Laws.RowWord.rdbuf k
  | .ldbuf d => Laws.RowWord.ldbuf d
  | .clrbuf => Laws.RowWord.clrbuf
  | .wreg a v => Laws.RowWord.wreg a v
  | .rreg a => Laws.RowWord.rreg a
  | .rburst a n => Laws.RowWord.rburst a n
  | .strobe c => Laws.RowWord.strobe c
  | .wait ms => Laws.RowWord.wait ms
  | .sumHold => Laws.RowWord.sumHold
  | .sumAdd d => Laws.RowWord.sumAdd d
  | .sumClr => Laws.RowWord.sumClr
  | .sumLoad d => Laws.RowWord.sumLoad d
  | .crcHold => Laws.RowWord.crcHold
  | .crcByte d => Laws.RowWord.crcByte d
  | .crcClr => Laws.RowWord.crcClr
  | .crcLoad d => Laws.RowWord.crcLoad d

theorem exists_hostRow_of_encode {w : BitVec 16} {i : Instr} (h : encode i = .host w) :
    ∃ r ∈ hostRows, r.matches w = true := by
  have hrow := rowWord i
  rw [Laws.RowWord.Statement, h] at hrow
  exact hrow.2

theorem exists_busRow_of_encode {w : BitVec 20} {i : Instr} (h : encode i = .bus w) :
    ∃ r ∈ busRows, r.matches w = true := by
  have hrow := rowWord i
  rw [Laws.RowWord.Statement, h] at hrow
  exact hrow.2

/-- A word that matches a row of R92 is a command. -/
theorem decode_host_of_row {w : BitVec 16} {row : Row 16} (hrow : row ∈ hostRows) (h : row.matches w = true) :
    ∃ i, decode (.host w) = .instr i := by
  obtain ⟨hinit, hpoll, hdecode, hpush, hrd, hrdbuf, hldbuf, hclrbuf⟩ := hostDecodeFollowsTable.1 w
  have hw := beq_iff_eq.mp h
  simp only [hostRows, List.mem_cons, List.not_mem_nil, or_false] at hrow
  rcases hrow with rfl | rfl | rfl | rfl | rfl | rfl | rfl | rfl
  exacts [⟨_, hinit hw⟩, ⟨_, hpoll hw⟩, ⟨_, hdecode hw⟩, ⟨_, hpush hw⟩, ⟨_, hrd hw⟩, ⟨_, hrdbuf hw⟩,
    ⟨_, hldbuf hw⟩, ⟨_, hclrbuf hw⟩]

/-- The host port rejects the words of no row. -/
theorem decode_host_rejected_iff (w : BitVec 16) :
    decode (.host w) = .rejected .reservedCommand ↔ ∀ row ∈ hostRows, row.matches w = false := by
  constructor
  · intro hrej row hrow
    refine eq_false_of_ne_true fun h => ?_
    obtain ⟨i, hi⟩ := decode_host_of_row hrow h
    cases hrej.symm.trans hi
  · intro hno
    rcases decodeHost_cases w with ⟨i, hi, -⟩ | hrej
    · obtain ⟨row, hrow, h⟩ := exists_hostRow_of_encode (encode_of_decodeHost hi)
      cases (hno row hrow).symm.trans h
    · exact hrej

/-- R104's list of reserved words. -/
def Reserved (w : BitVec 16) : Prop :=
  let op := w.toNat / 4096
  let z := w.toNat / 256 % 16
  let imm := w.toNat % 256
  op = 0 ∨ 9 ≤ op ∨ z ≠ 0 ∨ (op = 1 ∧ imm / 2 ≠ 0) ∨ ((op = 2 ∨ op = 3 ∨ op = 8) ∧ imm ≠ 0)

theorem opField_toNat (w : BitVec 16) : (opField w).toNat = w.toNat / 4096 := by
  have := w.isLt
  rw [opField, BitVec.extractLsb'_toNat, Nat.shiftRight_eq_div_pow]
  omega

theorem zField_toNat (w : BitVec 16) : (zField w).toNat = w.toNat / 256 % 16 := by
  rw [zField, BitVec.extractLsb'_toNat, Nat.shiftRight_eq_div_pow]

theorem immField_toNat (w : BitVec 16) : (immField w).toNat = w.toNat % 256 := by
  rw [immField, BitVec.extractLsb'_toNat, Nat.shiftRight_zero]

theorem immField_high_toNat (w : BitVec 16) : ((immField w).extractLsb' 1 7).toNat = w.toNat % 256 / 2 := by
  rw [BitVec.extractLsb'_toNat, immField_toNat, Nat.shiftRight_eq_div_pow]
  omega

/-- The decoder rejects the words of R104's list and no others. -/
theorem reserved_iff_rejected (w : BitVec 16) : Reserved w ↔ decode (.host w) = .rejected .reservedCommand := by
  change _ ↔ decodeHost w = _
  unfold Reserved
  fun_cases decodeHost w with
  | case1 hz =>
    exact iff_of_true (.inr (.inr (.inl fun h0 => hz (BitVec.eq_of_toNat_eq ((zField_toNat w).trans h0))))) rfl
  | case3 imm | case5 imm | case7 imm | case13 imm | case14 imm =>
    refine iff_of_true ?_ rfl
    simp only [imm, ← BitVec.toNat_inj, ne_eq, not_not, opField_toNat, zField_toNat, immField_toNat,
      immField_high_toNat, BitVec.toNat_ofNat] at *
    omega
  | case2 imm | case4 imm | case6 imm | case8 imm | case9 imm | case10 imm | case11 imm | case12 imm =>
    refine iff_of_false ?_ nofun
    simp only [imm, ← BitVec.toNat_inj, ne_eq, not_not, opField_toNat, zField_toNat, immField_toNat,
      immField_high_toNat, BitVec.toNat_ofNat] at *
    omega

/-- A reserved command is answered, and that is all that happens (R104). -/
theorem step_of_reserved {s : State} {r : Request} {rest : List Request} {w : BitVec 16}
    (hreq : s.inp.requests = r :: rest) (hword : r.word = .host w)
    (hdec : decode (.host w) = .rejected .reservedCommand) :
    step s = .next ((s.accept r rest).respond .eIllegalCmd 0) :=
  (step_of_rejected hreq (hword ▸ hdec)).trans rfl

/-- Settles O6: the list is what the decoder rejects, and the step answers a rejected word. -/
theorem reservedCommandsAnswered : Obligations.ReservedCommandsAnswered := by
  refine ⟨by decide, by decide, fun w => (reserved_iff_rejected w).trans (decode_host_rejected_iff w),
    reserved_iff_rejected, ?_⟩
  intro s r rest w hreq hword hres
  exact ⟨_, step_of_reserved hreq hword ((reserved_iff_rejected w).mp hres), rfl, rfl, rfl, rfl, rfl, rfl, rfl,
    by decide, rfl⟩

/-! ### The undefined bus words (R105) -/

/-- A bus word is an event or of no defined behaviour (R99, R105). -/
theorem decodeBus_cases (w : BitVec 20) :
    (∃ i, decodeBus w = .instr i) ∨ decodeBus w = .rejected .busKind ∨ decodeBus w = .rejected .busOperand := by
  fun_cases decodeBus w with
  | case1 | case2 | case4 | case5 | case7 => exact .inl ⟨_, rfl⟩
  | case3 | case6 | case8 => exact .inr (.inr rfl)
  | case9 => exact .inr (.inl rfl)

/-- The bus port rejects the words of no row. -/
theorem decode_bus_of_no_row {w : BitVec 20} (hno : ∀ row ∈ busRows, row.matches w = false) :
    decode (.bus w) = .rejected .busKind ∨ decode (.bus w) = .rejected .busOperand := by
  refine (decodeBus_cases w).resolve_left fun ⟨i, hi⟩ => ?_
  obtain ⟨row, hrow, h⟩ := exists_busRow_of_encode (encode_of_decodeBus hi)
  cases (hno row hrow).symm.trans h

theorem exec_rburst_of_not_lengthOk {a n : Byte} (hn : burstLengthOk n = false) (s : State) :
    exec (.rburst a n) s = .refused .burstLength :=
  if_neg (ne_true_of_eq_false hn)

/-- Settles O13: the step refuses either rejection, and RBURST refuses the lengths that are not 1 to 80. -/
theorem undefinedBusWordsStop : Obligations.UndefinedBusWordsStop := by
  constructor
  · intro s r rest w hreq hword hno
    rcases decode_bus_of_no_row hno with hrej | hrej
    · exact ⟨_, (step_of_rejected hreq (hword ▸ hrej)).trans rfl⟩
    · exact ⟨_, (step_of_rejected hreq (hword ▸ hrej)).trans rfl⟩
  · intro a n s hn
    refine exec_rburst_of_not_lengthOk (eq_false_of_ne_true fun hok => ?_) s
    have hbounds := (burstLengthOk_iff n).mp hok
    rcases hn with rfl | hn
    · exact absurd hbounds.1 (by decide)
    · omega

end Sys2Proof.Machine
end

section
/-! PROOFS. The responses of the host commands (R96, R270). -/

namespace Sys2Proof.Machine

open Sys2Proof

/-! ### The response word (R96) -/

theorem Rsp.word_code (r : Rsp) : r.word.extractLsb' 32 8 = r.code.byte :=
  extractLsb'_eq_of_getLsbD fun i _ => by
    rw [Rsp.word, BitVec.getLsbD_append, if_neg (by omega), Nat.add_sub_cancel_left]

theorem Rsp.word_data (r : Rsp) : r.word.extractLsb' 0 32 = r.data :=
  extractLsb'_eq_of_getLsbD fun i hi => by
    rw [Rsp.word, BitVec.getLsbD_append, Nat.zero_add, if_pos hi]

/-! ### The commands, one by one (R145, R155, R180, R212, R250 to R256) -/

theorem InitStep.response {b : BitVec 1} {s t : State} (h : InitStep b s t) :
    ∃ r, t.out.rsp = some r ∧ (r.code = .ok ∨ r.code = .eChipNotDetected) ∧
      r.data = (s.answerAt s.inp.ansPos).setWidth 32 := by
  cases h with
  | found => exact ⟨_, rfl, .inl rfl, rfl⟩
  | missing => exact ⟨_, rfl, .inr rfl, rfl⟩

theorem PollStep.response {s t : State} (h : PollStep s t) :
    ∃ r, t.out.rsp = some r ∧
      ((r.code = .ok ∧ r.data = BitVec.ofNat 32 t.u1.rxlen.val ∧ 1 ≤ t.u1.rxlen.val) ∨
        (r.code = .noData ∧ r.data = 0 ∧ t.u1.rxlen.val = 0)) := by
  cases h with
  | packet _ _ _ hcnt2 n hn =>
    have hpos : 1 ≤ n.val := by
      rw [hn, burstLen]
      dsimp only
      omega
    exact ⟨_, rfl, .inl ⟨rfl, rfl, hpos⟩⟩
  | overflow | empty | overflowSettled | emptySettled => exact ⟨_, rfl, .inr ⟨rfl, rfl, rfl⟩⟩

theorem DecodeStep.response {s t : State} (h : DecodeStep s t) :
    ∃ r, t.out.rsp = some r ∧
      ((r.code = .ok ∧ r.data = (BitVec.ofBool t.u2.familyWarn).setWidth 32) ∨
        ((r.code = .eTooShort ∨ r.code = .eWxChecksum) ∧ r.data = 0)) := by
  cases h with
  | short => exact ⟨_, rfl, .inr ⟨.inl rfl, rfl⟩⟩
  | mismatch => exact ⟨_, rfl, .inr ⟨.inr rfl, rfl⟩⟩
  | accepted => exact ⟨_, rfl, .inl ⟨rfl, rfl⟩⟩

theorem PushStep.response {d : Byte} {s t : State} (h : PushStep d s t) :
    ∃ r, t.out.rsp = some r ∧ (r.code = .noData ∨ r.code = .ok ∨ r.code = .ePmChecksum) ∧ r.data = 0 := by
  cases h with
  | skipped | firstHeader | secondHeader | lost | stored => exact ⟨_, rfl, .inl rfl, rfl⟩
  | valid => exact ⟨_, rfl, .inr (.inl rfl), rfl⟩
  | invalid => exact ⟨_, rfl, .inr (.inr rfl), rfl⟩

/-! ### The host access commands, case by case (R250, R252, R254) -/

theorem exec_rd_implemented {r : Byte} {g : HostReg} (hr : regOf r = some g) (s : State) :
    exec (.rd r) s = .next (s.respond .ok (regValue s g)) := by
  simp only [exec, execRd, hr]

theorem exec_rdbuf_below {k : Byte} {s : State} (hk : k.toNat < s.u1.rxlen.val) :
    exec (.rdbuf k) s = .next (s.respond .ok ((Memory.read s.u1.rxbuf k.toNat).zeroExtend 32)) :=
  congrArg Host.Outcome.next (if_pos hk)

theorem exec_rdbuf_above {k : Byte} {s : State} (hk : ¬ k.toNat < s.u1.rxlen.val) :
    exec (.rdbuf k) s = .next (s.respond .eRange 0) :=
  congrArg Host.Outcome.next (if_neg hk)

theorem exec_ldbuf_room {d : Byte} {s : State} (h : s.u1.rxlen.val < 80) :
    exec (.ldbuf d) s =
      .next { s with
        u1 :=
          { s.u1 with
            rxbuf := Memory.write s.u1.rxbuf s.u1.rxlen.val d
            rxlen := ⟨s.u1.rxlen.val + 1, by omega⟩ }
        out := { s.out with rsp := some ⟨.ok, BitVec.ofNat 32 (s.u1.rxlen.val + 1)⟩ } } :=
  congrArg Host.Outcome.next (dif_pos h)

theorem exec_ldbuf_full {d : Byte} {s : State} (h : ¬ s.u1.rxlen.val < 80) :
    exec (.ldbuf d) s = .next (s.respond .eRange 80#32) :=
  congrArg Host.Outcome.next (dif_neg h)

/-- Settles O11: command by command, in each of its cases. -/
theorem responsesPerCommand : Obligations.ResponsesPerCommand := by
  refine ⟨fun i s hi => ?_, fun r => ⟨r.word_code, r.word_data⟩, rfl,
    fun s r rest w hreq hword hdec => ⟨_, step_of_reserved hreq hword hdec, rfl⟩⟩
  cases i with
  | init b =>
    obtain ⟨t, hexec, -⟩ := execInit_answered b s
    obtain ⟨r, hr⟩ := (execInit_step hexec).response
    exact ⟨t, r, hexec, hr⟩
  | poll =>
    obtain ⟨t, hexec, -⟩ := execPoll_answered s
    obtain ⟨r, hr⟩ := (execPoll_step hexec).response
    exact ⟨t, r, hexec, hr⟩
  | decode =>
    obtain ⟨t, hexec, -⟩ := execDecode_answered s
    obtain ⟨r, hr⟩ := (execDecode_step hexec).response
    exact ⟨t, r, hexec, hr⟩
  | push d =>
    obtain ⟨t, hexec, -⟩ := execPush_answered d s
    obtain ⟨r, hr⟩ := (execPush_step hexec).response
    exact ⟨t, r, hexec, hr⟩
  | rd k =>
    cases hg : regOf k with
    | some g => exact ⟨_, _, exec_rd_implemented hg s, rfl, .inl ⟨rfl, g, hg, rfl⟩⟩
    | none => exact ⟨_, _, exec_rd_unimplemented hg s, rfl, .inr ⟨rfl, rfl⟩⟩
  | rdbuf k =>
    by_cases hk : k.toNat < s.u1.rxlen.val
    · exact ⟨_, _, exec_rdbuf_below hk, rfl, .inl ⟨rfl, rfl⟩⟩
    · exact ⟨_, _, exec_rdbuf_above hk, rfl, .inr ⟨rfl, rfl⟩⟩
  | ldbuf d =>
    by_cases h : s.u1.rxlen.val < 80
    · exact ⟨_, _, exec_ldbuf_room h, rfl, .inl rfl, rfl⟩
    · have h80 : s.u1.rxlen.val = 80 := by omega
      exact ⟨_, _, exec_ldbuf_full h, rfl, .inr rfl, (congrArg (BitVec.ofNat 32) h80).symm⟩
  | clrbuf => exact ⟨_, _, rfl, rfl, rfl, rfl⟩
  | _ => exact absurd hi Bool.false_ne_true

end Sys2Proof.Machine
end

section
/-! PROOFS. Sequences of commands: a loaded frame with its CRC (R111, R178, R254), PUSH in chunks and between other
commands (R225), and the polling cycle (R112, R315). -/

namespace Sys2Proof.Machine

open Sys2Proof

/-! ### Runs (R111) -/

theorem runInstrs_cons {i : Instr} {is : List Instr} {s t : State} (h : exec i s = .next t) :
    runInstrs (i :: is) s = runInstrs is t := by
  simp only [runInstrs, h]

/-- Host commands run to their end. -/
theorem runInstrs_host : ∀ {is : List Instr}, (∀ i ∈ is, i.isHost = true) → ∀ s, ∃ t, runInstrs is s = .next t
  | [], _, s => ⟨s, rfl⟩
  | i :: is, his, s => by
    obtain ⟨t, hexec, -⟩ := exec_host_answered (his i List.mem_cons_self) s
    rw [runInstrs_cons hexec]
    exact runInstrs_host (fun j hj => his j (List.mem_cons_of_mem i hj)) t

theorem isHost_of_mem_pushN {ds : List Byte} {i : Instr} (h : i ∈ pushN ds) : i.isHost = true := by
  obtain ⟨d, -, rfl⟩ := List.mem_map.mp h
  rfl

/-! ### A loaded frame (R111, R178, R254) -/

/-- Loading bytes while there is room: they stand in the buffer, after those already there. -/
theorem runInstrs_ldbufs : ∀ (ds : List Byte) (s : State), s.u1.rxlen.val + ds.length ≤ 80 →
    ∃ t, runInstrs (ds.map .ldbuf) s = .next t ∧
      t.u1.rxbuf = Memory.writeList s.u1.rxbuf s.u1.rxlen.val ds ∧ t.u1.rxlen.val = s.u1.rxlen.val + ds.length
  | [], s, _ => ⟨s, rfl, rfl, rfl⟩
  | d :: ds, s, h => by
    rw [List.length_cons] at h ⊢
    obtain ⟨p, hexec, hbuf, hlen⟩ : ∃ p, exec (.ldbuf d) s = .next p ∧
        p.u1.rxbuf = Memory.write s.u1.rxbuf s.u1.rxlen.val d ∧ p.u1.rxlen.val = s.u1.rxlen.val + 1 :=
      ⟨_, exec_ldbuf_room (by omega), rfl, rfl⟩
    obtain ⟨t, hrun, hbuf', hlen'⟩ := runInstrs_ldbufs ds p (by omega)
    refine ⟨t, (runInstrs_cons hexec).trans hrun, ?_, by omega⟩
    rw [hbuf', hbuf, hlen, Memory.writeList]

/-- LOADFRAME of at most 80 bytes: they are the packet. -/
theorem runInstrs_loadFrame {ds : List Byte} {s : State} (h : ds.length ≤ 80) :
    ∃ t, runInstrs (loadFrame ds) s = .next t ∧ t.u1.rxbuf = Memory.writeList s.u1.rxbuf 0 ds ∧
      t.u1.rxlen.val = ds.length := by
  obtain ⟨t, hrun, hbuf, hlen⟩ := runInstrs_ldbufs ds ((s.setRxLen 0).respond .ok 0) (by simpa using h)
  exact ⟨t, hrun, hbuf, hlen.trans (Nat.zero_add _)⟩

/-- The first bytes of a buffer in which a list was written from index 0 on. -/
theorem rxBytes_of_writeList {m : Memory} {bs rest : List Byte} {s : State} (hm : Memory.wf 80 m = true)
    (hlen : (bs ++ rest).length ≤ 80) (hbuf : s.u1.rxbuf = Memory.writeList m 0 (bs ++ rest)) :
    s.rxBytes bs.length = bs := by
  refine List.ext_getElem (State.rxBytes_length ..) fun k _ hk => ?_
  have hk' : k < (bs ++ rest).length := by rw [List.length_append]; omega
  simp only [State.rxBytes, List.getElem_map, List.getElem_range]
  rw [hbuf, Memory.read_writeList hm (by omega),
    if_pos (by omega), Nat.sub_zero, List.getD_eq_getElem _ _ hk', List.getElem_append_left hk]

/-- A packet whose last byte is the CRC of the others. -/
theorem packetCrc_eq_packetLast {m : Memory} {bs : List Byte} {s : State} (hm : Memory.wf 80 m = true)
    (hlen : bs.length ≤ 79) (hbuf : s.u1.rxbuf = Memory.writeList m 0 (bs ++ [crc8 bs]))
    (hrx : s.u1.rxlen.val = bs.length + 1) : packetCrc s = packetLast s := by
  have hall : (bs ++ [crc8 bs]).length ≤ 80 := by simp; omega
  rw [packetCrc, packetLast, hrx, Nat.add_sub_cancel, rxBytes_of_writeList hm hall hbuf, hbuf,
    Memory.read_writeList hm (by omega), if_pos (by simp)]
  simp

/-- DECODE of a packet of at least 17 bytes that ends in its CRC is accepted. -/
theorem DecodeStep.of_crc {s t : State} (h : DecodeStep s t) (hlen : 17 ≤ s.u1.rxlen.val)
    (hcrc : packetCrc s = packetLast s) :
    t.out.rsp.map (·.code) = some .ok ∧ t.u2.reading.valid = true ∧ t.u1.rxlen.val = 0 := by
  cases h with
  | short hlt => omega
  | mismatch _ hne => exact absurd hcrc hne
  | accepted => exact ⟨rfl, rfl, rfl⟩

/-- DECODE of fewer than 17 bytes is answered `E_TOO_SHORT`. -/
theorem DecodeStep.of_short {s t : State} (h : DecodeStep s t) (hlen : s.u1.rxlen.val < 17) :
    t.out.rsp = some ⟨.eTooShort, 0⟩ := by
  cases h with
  | short => rfl
  | mismatch hle | accepted hle => omega

/-- Settles O47: the loaded bytes are the packet, their CRC is its last byte, and DECODE leaves no packet. -/
theorem loadedFrameWithItsCrcAccepted : Obligations.LoadedFrameWithItsCrcAccepted := by
  intro s m hwf hlo hhi
  have hlen : (m ++ [crc8 m]).length = m.length + 1 := by simp
  obtain ⟨p, hrun, hbuf, hrx⟩ := runInstrs_loadFrame (ds := m ++ [crc8 m]) (s := s) (by omega)
  obtain ⟨t, hdecode, -⟩ := execDecode_answered p
  obtain ⟨u, hagain, -⟩ := execDecode_answered t
  obtain ⟨hok, hvalid, hempty⟩ := (execDecode_step hdecode).of_crc (by omega)
    (packetCrc_eq_packetLast hwf hhi hbuf (hrx.trans hlen))
  exact ⟨t, u, (runInstrs_append hrun).trans (runInstrs_cons hdecode), hok, hvalid, hempty, hagain,
    (execDecode_step hagain).of_short (by omega)⟩

/-! ### PUSH between other commands (R225) -/

/-- Two states that agree on all that PUSH reads. -/
structure SameFrame (s s' : State) : Prop where
  cfg : s.cfg = s'.cfg
  u3 : s.u3 = s'.u3
  sum16 : s.sum16 = s'.sum16
  now : s.inp.now = s'.inp.now

theorem SameFrame.refl (s : State) : SameFrame s s := ⟨rfl, rfl, rfl, rfl⟩

theorem SameFrame.symm {s s' : State} (h : SameFrame s s') : SameFrame s' s :=
  ⟨h.cfg.symm, h.u3.symm, h.sum16.symm, h.now.symm⟩

theorem SameFrame.trans {s s' s'' : State} (h : SameFrame s s') (h' : SameFrame s' s'') : SameFrame s s'' :=
  ⟨h.cfg.trans h'.cfg, h.u3.trans h'.u3, h.sum16.trans h'.sum16, h.now.trans h'.now⟩

/-- `PushStep` says what PUSH does: each of its cases determines the next state. -/
theorem PushStep.execPush_eq {d : Byte} {s t : State} (h : PushStep d s t) : execPush d s = .next t := by
  cases h with
  | skipped hsync hd => simp only [execPush, hsync, if_neg hd]; rfl
  | firstHeader hsync hd => simp only [execPush, hsync, if_pos hd]; subst hd; rfl
  | secondHeader hsync hd => simp only [execPush, hsync, if_pos hd]; subst hd; rfl
  | lost hsync hd => simp only [execPush, hsync, if_neg hd]; rfl
  | stored hsync hcur => simp only [execPush, hsync, pushAcc_below hcur]
  | valid hsync hcur hsum => simp only [execPush, hsync, pushAcc_last hcur]; rw [frameComplete_valid hsum]; rfl
  | invalid hsync hcur hsum => simp only [execPush, hsync, pushAcc_last hcur]; rw [frameComplete_invalid hsum]; rfl

/-- PUSH reads the configuration, U3, U4 and `now` only. -/
theorem PushStep.of_sameFrame {d : Byte} {s s' t : State} (hs : SameFrame s s') (h : PushStep d s t) :
    ∃ t', PushStep d s' t' ∧ SameFrame t t' := by
  obtain ⟨cfg', u1', u2', u3', sum16', inp', out'⟩ := s'
  obtain ⟨rfl, rfl, rfl, hnow⟩ := hs
  cases h with
  | skipped hsync hd => exact ⟨_, .skipped hsync hd, rfl, rfl, rfl, hnow⟩
  | firstHeader hsync hd => exact ⟨_, .firstHeader hsync hd, rfl, rfl, rfl, hnow⟩
  | secondHeader hsync hd => exact ⟨_, .secondHeader hsync hd, rfl, rfl, rfl, hnow⟩
  | lost hsync hd => exact ⟨_, .lost hsync hd, rfl, rfl, rfl, hnow⟩
  | stored hsync hcur =>
    exact ⟨_, .stored (s := ⟨s.cfg, u1', u2', s.u3, s.sum16, inp', out'⟩) hsync hcur, rfl, rfl, rfl, hnow⟩
  | valid hsync hcur hsum =>
    refine ⟨_, .valid hsync hcur hsum, rfl, ?_, rfl, hnow⟩
    rw [State.sampleNow, hnow]
    rfl
  | invalid hsync hcur hsum => exact ⟨_, .invalid hsync hcur hsum, rfl, rfl, rfl, hnow⟩

/-- A host command other than PUSH keeps all that PUSH reads. -/
theorem exec_sameFrame_of_not_push {i : Instr} {s t : State} (hi : i.isHost = true) (hpush : ∀ d, i ≠ .push d)
    (h : exec i s = .next t) : SameFrame s t := by
  cases exec_step h with
  | init h => cases h <;> exact ⟨rfl, rfl, rfl, rfl⟩
  | poll h => cases h <;> exact ⟨rfl, rfl, rfl, rfl⟩
  | decode h => cases h <;> exact ⟨rfl, rfl, rfl, rfl⟩
  | push h => exact absurd rfl (hpush _)
  | sum x hi' => rw [hi] at hi'; cases hi'
  | access | event | crc => exact ⟨rfl, rfl, rfl, rfl⟩

/-- The commands of unit U3. -/
def isPush : Instr → Bool
  | .push _ => true
  | _ => false

/-- From states that PUSH cannot tell apart, a run of host commands and its PUSH commands alone end in such states. -/
theorem runInstrs_filter_isPush : ∀ {is : List Instr} {s s' : State}, (∀ i ∈ is, i.isHost = true) → SameFrame s s' →
    ∃ t t', runInstrs is s = .next t ∧ runInstrs (is.filter isPush) s' = .next t' ∧ SameFrame t t'
  | [], s, s', _, hs => ⟨s, s', rfl, rfl, hs⟩
  | i :: is, s, s', his, hs => by
    have hi := his i List.mem_cons_self
    have htail : ∀ j ∈ is, j.isHost = true := fun j hj => his j (List.mem_cons_of_mem i hj)
    obtain ⟨u, hexec, -⟩ := exec_host_answered hi s
    rw [runInstrs_cons hexec]
    by_cases hpush : ∀ d, i ≠ .push d
    · have hnot : isPush i = false := by
        cases i with
        | push d => exact absurd rfl (hpush d)
        | _ => rfl
      rw [List.filter_cons_of_neg (ne_true_of_eq_false hnot)]
      exact runInstrs_filter_isPush htail ((exec_sameFrame_of_not_push hi hpush hexec).symm.trans hs)
    · obtain ⟨d, hd⟩ := not_forall_not.mp hpush
      subst hd
      obtain ⟨u', hpush', hu⟩ := (execPush_step hexec).of_sameFrame hs
      rw [List.filter_cons_of_pos rfl, runInstrs_cons (i := .push d) hpush'.execPush_eq]
      exact runInstrs_filter_isPush htail hu

/-- Settles O56: runs compose, and U3 and U4 see the PUSH commands only. -/
theorem pushesAreChunkInvariant : Obligations.PushesAreChunkInvariant := by
  constructor
  · intro x y s
    obtain ⟨t, hx⟩ := runInstrs_host (fun _ h => isHost_of_mem_pushN (ds := x) h) s
    obtain ⟨u, hy⟩ := runInstrs_host (fun _ h => isHost_of_mem_pushN (ds := y) h) t
    have happend : pushN (x ++ y) = pushN x ++ pushN y := List.map_append
    rw [happend]
    exact ⟨t, u, hx, hy, (runInstrs_append hx).trans hy, runRsps_append hx⟩
  · intro is s his
    obtain ⟨t, t', hrun, hrun', ht⟩ := runInstrs_filter_isPush his (SameFrame.refl s)
    exact ⟨t, t', hrun, hrun', ht.u3, ht.sum16⟩

/-! ### The polling cycle (R112, R315) -/

/-- What each instruction of a sequence keeps, its run keeps. -/
theorem runInstrs_keeps {P : State → Prop} : ∀ {is : List Instr} {s t : State},
    (∀ i ∈ is, ∀ s t, P s → exec i s = .next t → P t) → P s → runInstrs is s = .next t → P t
  | [], s, t, _, hs, h => by cases h; exact hs
  | i :: is, s, t, hkeep, hs, h => by
    cases hexec : exec i s with
    | next u =>
      rw [runInstrs_cons hexec] at h
      exact runInstrs_keeps (fun j hj => hkeep j (List.mem_cons_of_mem i hj))
        (hkeep i List.mem_cons_self s u hs hexec) h
    | fault r => simp [runInstrs, hexec] at h
    | refused r => simp [runInstrs, hexec] at h

/-- What PUSH leaves: U1 and U2, and a valid particulate reading stays valid. -/
def PushFrame (s t : State) : Prop :=
  t.u1 = s.u1 ∧ t.u2 = s.u2 ∧ (s.u3.reading.valid = true → t.u3.reading.valid = true)

theorem PushFrame.trans {s t u : State} (h : PushFrame s t) (h' : PushFrame t u) : PushFrame s u :=
  ⟨h'.1.trans h.1, h'.2.1.trans h.2.1, h'.2.2 ∘ h.2.2⟩

theorem PushStep.frame {d : Byte} {s t : State} (h : PushStep d s t) : PushFrame s t := by
  cases h with
  | valid => exact ⟨rfl, rfl, fun _ => rfl⟩
  | _ => exact ⟨rfl, rfl, id⟩

theorem runInstrs_pushN_frame {us : List Byte} {s t : State} (h : runInstrs (pushN us) s = .next t) :
    PushFrame s t := by
  refine runInstrs_keeps (P := PushFrame s) (fun i hi p q hp hexec => ?_) ⟨rfl, rfl, id⟩ h
  obtain ⟨d, -, rfl⟩ := List.mem_map.mp hi
  exact hp.trans (execPush_step hexec).frame

/-- POLL leaves U2, and a packet only if it answers OK. -/
theorem PollStep.frame {s t : State} (h : PollStep s t) :
    t.u2 = s.u2 ∧ (t.out.rsp.map (·.code) ≠ some .ok → t.u1.rxlen.val = 0) := by
  cases h with
  | packet => exact ⟨rfl, fun hne => absurd rfl hne⟩
  | overflow | empty | overflowSettled | emptySettled => exact ⟨rfl, fun _ => rfl⟩

/-- What DECODE makes of a packet: its outcome by length and CRC, an accepted packet the reading, and no packet left. -/
theorem DecodeStep.outcome {s t : State} (h : DecodeStep s t) :
    t.u1.rxlen.val = 0 ∧
    (s.u1.rxlen.val < 17 → t.u2.wxLast = 0x20#8 ∧ t.u2.reading = s.u2.reading) ∧
    (17 ≤ s.u1.rxlen.val → ¬ packetCrc s = packetLast s → t.u2.wxLast = 0x21#8 ∧ t.u2.reading = s.u2.reading) ∧
    (17 ≤ s.u1.rxlen.val → packetCrc s = packetLast s →
      t.u2.wxLast = 0x00#8 ∧ t.u2.reading = wxReadingOf s.cfg s.u1.rxbuf s.u1.rxlen.val s.sampleNow) := by
  cases h with
  | short hlt => exact ⟨rfl, fun _ => ⟨rfl, rfl⟩, fun hle => by omega, fun hle => by omega⟩
  | mismatch hle hne => exact ⟨rfl, fun hlt => by omega, fun _ _ => ⟨rfl, rfl⟩, fun _ heq => absurd heq hne⟩
  | accepted hle heq => exact ⟨rfl, fun hlt => by omega, fun _ hne => absurd heq hne, fun _ _ => ⟨rfl, rfl⟩⟩

theorem DecodeStep.valid {s t : State} (h : DecodeStep s t) (hs : s.u2.reading.valid = true) :
    t.u2.reading.valid = true := by
  cases h with
  | short | mismatch => exact hs
  | accepted => rfl

theorem filter_isPush_cycle (us : List Byte) (p : State) :
    (Instr.poll :: cycleRest us p).filter isPush = pushN us := by
  have hpushes : (pushN us).filter isPush = pushN us := by
    refine List.filter_eq_self.mpr fun i hi => ?_
    obtain ⟨d, -, rfl⟩ := List.mem_map.mp hi
    rfl
  rw [List.filter_cons_of_neg Bool.false_ne_true, cycleRest, List.filter_append, hpushes]
  split <;> rfl

theorem cycleRest_of_ok (us : List Byte) {p : State} (h : p.out.rsp.map (·.code) = some .ok) :
    cycleRest us p = .decode :: pushN us := by
  rw [cycleRest, if_pos h]
  rfl

theorem cycleRest_of_not_ok (us : List Byte) {p : State} (h : p.out.rsp.map (·.code) ≠ some .ok) :
    cycleRest us p = pushN us := by
  rw [cycleRest, if_neg h]
  rfl

theorem isHost_of_mem_cycle {us : List Byte} {p : State} {i : Instr} (h : i ∈ Instr.poll :: cycleRest us p) :
    i.isHost = true := by
  rcases List.mem_cons.mp h with rfl | h
  · rfl
  · by_cases hok : p.out.rsp.map (·.code) = some .ok
    · rw [cycleRest_of_ok us hok] at h
      rcases List.mem_cons.mp h with rfl | h
      · rfl
      · exact isHost_of_mem_pushN h
    · rw [cycleRest_of_not_ok us hok] at h
      exact isHost_of_mem_pushN h

/-- What a cycle does to U1 and U2 after its POLL: a DECODE if there is a packet, and the pushes nothing. -/
theorem cycleRest_cases {us : List Byte} {p t : State} (h : runInstrs (cycleRest us p) p = .next t) :
    (p.out.rsp.map (·.code) = some .ok ∧ ∃ q, DecodeStep p q ∧ t.u1 = q.u1 ∧ t.u2 = q.u2) ∨
    (p.out.rsp.map (·.code) ≠ some .ok ∧ t.u1 = p.u1 ∧ t.u2 = p.u2) := by
  by_cases hok : p.out.rsp.map (·.code) = some .ok
  · obtain ⟨q, hdecode, -⟩ := execDecode_answered p
    rw [cycleRest_of_ok us hok, runInstrs_cons (i := .decode) hdecode] at h
    obtain ⟨hu1, hu2, -⟩ := runInstrs_pushN_frame h
    exact .inl ⟨hok, q, execDecode_step hdecode, hu1, hu2⟩
  · rw [cycleRest_of_not_ok us hok] at h
    obtain ⟨hu1, hu2, -⟩ := runInstrs_pushN_frame h
    exact .inr ⟨hok, hu1, hu2⟩

/-- Settles O57: U3 and U4 see the pushes only, U1 and U2 the POLL and, if there is a packet, the DECODE. -/
theorem cycleConsumesItsPacket : Obligations.CycleConsumesItsPacket := by
  intro us s
  obtain ⟨p, hpoll, -⟩ := exec_host_answered (i := .poll) rfl s
  obtain ⟨t, t', hrun, hrun', hframe⟩ := runInstrs_filter_isPush (is := .poll :: cycleRest us p)
    (fun _ => isHost_of_mem_cycle) (SameFrame.refl s)
  rw [runInstrs_cons hpoll] at hrun
  rw [filter_isPush_cycle] at hrun'
  have hcycle : cycle us s = .next t := by simp only [cycle, hpoll, hrun]
  obtain ⟨-, -, hpm⟩ := runInstrs_pushN_frame hrun'
  rw [← hframe.u3] at hpm
  have hp := exec_sameFrame_of_not_push (i := .poll) rfl nofun hpoll
  obtain ⟨hu2, hempty⟩ := (execPoll_step hpoll).frame
  rw [← hu2, hp.cfg, hp.now]
  rcases cycleRest_cases hrun with ⟨hok, q, hq, hu1t, hu2t⟩ | ⟨hno, hu1t, hu2t⟩
  · obtain ⟨hlen, houtcome⟩ := hq.outcome
    rw [← hu2t] at houtcome
    exact ⟨p, t, t', hpoll, hcycle, hrun', hu1t ▸ hlen, hframe.u3, hframe.sum16, fun hv => hu2t ▸ hq.valid hv, hpm,
      fun _ => houtcome, absurd hok⟩
  · exact ⟨p, t, t', hpoll, hcycle, hrun', hu1t ▸ hempty hno, hframe.u3, hframe.sum16, fun hv => hu2t ▸ hv, hpm,
      fun hok => absurd hok hno, fun _ => hu2t⟩

end Sys2Proof.Machine
end

section
/-! PROOFS. The bus events that record themselves and nothing else (R120 to R122, R124, R125), and the re-arm pair as
the end of every POLL that read a burst or an overflow (R131). -/

namespace Sys2Proof.Machine

open Sys2Proof

/-! ### One event alone (R120) -/

/-- An event that is not answered takes nothing from the answer stream: it is recorded, and that is all. -/
theorem State.perform_of_unanswered {e : BusEvent} (h : answerLen e = 0) (s : State) :
    s.perform e = { s with out := { s.out with trace := s.out.trace ++ [⟨e, []⟩] } } := by
  rw [State.perform, h]
  rfl

/-- A register read takes the next answer byte and is recorded with it. -/
theorem State.perform_rreg (a : Byte) (s : State) :
    s.perform (.rreg a) =
      { s with
        inp := { s.inp with ansPos := s.inp.ansPos + 1 }
        out := { s.out with trace := s.out.trace ++ [⟨.rreg a, [s.nextAnswer]⟩] } } := rfl

/-- Settles O26: each of the four performs its event, and only the read is answered. -/
theorem busEventsRecordOnly : Obligations.BusEventsRecordOnly := by
  intro s a v c ms
  exact ⟨congrArg Host.Outcome.next (s.perform_of_unanswered rfl), congrArg Host.Outcome.next (s.perform_rreg a),
    congrArg Host.Outcome.next (s.perform_of_unanswered rfl), congrArg Host.Outcome.next (s.perform_of_unanswered rfl)⟩

/-! ### The end of a POLL (R131) -/

/-- The events of REARM (R130). -/
def rearmPair (c : Cfg) : List BusRecord := [⟨.strobe c.strobeFlushRx, []⟩, ⟨.strobe c.strobeEnterRx, []⟩]

/-- The events R131 asks a re-arm for: a burst read, and an occupancy read that shows the overflow flag. -/
def NeedsRearm (c : Cfg) (e : BusRecord) : Prop :=
  (∃ a n, e.event = .rburst a n) ∨ (e.event = .rreg c.occAddr ∧ ∃ b, e.answer = [b] ∧ occOverflow c b = true)

/-- After each event that needs it, the list goes on with the re-arm pair and ends there (R131). -/
def RearmsLast (c : Cfg) (evs : List BusRecord) : Prop :=
  ∀ before e after, evs = before ++ e :: after → NeedsRearm c e → after = rearmPair c

theorem not_needsRearm_of_ne {c : Cfg} {e : BusRecord} (hburst : ∀ a n, e.event ≠ .rburst a n)
    (hread : ∀ a, e.event ≠ .rreg a) : ¬ NeedsRearm c e := by
  rintro (⟨a, n, h⟩ | ⟨h, -⟩)
  · exact hburst a n h
  · exact hread _ h

theorem not_needsRearm_rreg {c : Cfg} {b : Byte} (hovf : occOverflow c b = false) (a : Byte) :
    ¬ NeedsRearm c ⟨.rreg a, [b]⟩ := by
  rintro (⟨a, n, h⟩ | ⟨-, b', h, hovf'⟩)
  · cases h
  · cases h
    exact absurd hovf' (ne_true_of_eq_false hovf)

theorem rearmsLast_nil (c : Cfg) : RearmsLast c [] := by
  intro before e after h
  simp at h

/-- One event more in front: it needs no re-arm, or the rest is the re-arm pair. -/
theorem RearmsLast.cons {c : Cfg} {e : BusRecord} {evs : List BusRecord} (he : NeedsRearm c e → evs = rearmPair c)
    (hevs : RearmsLast c evs) : RearmsLast c (e :: evs) := by
  intro before e' after h
  rcases List.cons_eq_append_iff.mp h with ⟨-, h⟩ | ⟨before', -, h⟩
  · cases h
    exact he
  · exact hevs before' e' after h

theorem RearmsLast.cons_quiet {c : Cfg} {e : BusRecord} {evs : List BusRecord} (he : ¬ NeedsRearm c e)
    (hevs : RearmsLast c evs) : RearmsLast c (e :: evs) :=
  .cons (fun h => absurd h he) hevs

theorem rearmsLast_cons_rearmPair (c : Cfg) (e : BusRecord) : RearmsLast c (e :: rearmPair c) :=
  .cons (fun _ => rfl)
    (.cons_quiet (not_needsRearm_of_ne nofun nofun) (.cons_quiet (not_needsRearm_of_ne nofun nofun) (rearmsLast_nil c)))

/-- The events from `s` to `t`, a later state of the same command, are as R131 asks. -/
def EmitsRearming (s t : State) : Prop := ∃ evs, t.out.trace = s.out.trace ++ evs ∧ RearmsLast s.cfg evs

theorem emitsRearming_refl (s : State) : EmitsRearming s s := ⟨[], (List.append_nil _).symm, rearmsLast_nil _⟩

/-- Perform an event that needs no re-arm, and go on. -/
theorem EmitsRearming.of_perform {e : BusEvent} {s t : State}
    (he : ¬ NeedsRearm s.cfg ⟨e, s.answerBytes (answerLen e)⟩) (h : EmitsRearming (s.perform e) t) :
    EmitsRearming s t := by
  obtain ⟨evs, htrace, hevs⟩ := h
  exact ⟨_ :: evs, htrace.trans (List.append_assoc ..), .cons_quiet he hevs⟩

/-- Perform any event, re-arm, and end. -/
theorem emitsRearming_perform_rearm (e : BusEvent) (s : State) : EmitsRearming s (s.perform e).rearm := by
  refine ⟨⟨e, s.answerBytes (answerLen e)⟩ :: rearmPair s.cfg, ?_, rearmsLast_cons_rearmPair _ _⟩
  rw [State.rearm_eq]
  exact List.append_assoc ..

theorem pollDrain_emitsRearming (n : Fin 81) (s : State) : EmitsRearming s (pollDrain n s) := by
  rw [pollDrain_eq]
  exact ⟨_, rfl, rearmsLast_cons_rearmPair _ _⟩

/-- POLL from its settle delay on: an overflow at the second read, nothing received, or the burst (R157, R158). -/
theorem pollSecond_emitsRearming (s : State) : EmitsRearming s (pollSecond s) := by
  refine .of_perform (e := .wait 10#8) (not_needsRearm_of_ne nofun nofun) ?_
  unfold pollSecond
  dsimp only
  split
  · exact emitsRearming_perform_rearm (.rreg s.cfg.occAddr) (s.perform (.wait 10#8))
  · next hovf =>
    refine .of_perform (not_needsRearm_rreg (eq_false_of_ne_true hovf) s.cfg.occAddr) ?_
    split
    · exact emitsRearming_refl _
    · exact pollDrain_emitsRearming _ _

/-- POLL from its first occupancy read on: an overflow, nothing received, or what follows the read (R155, R156). -/
theorem execPoll_emitsRearming (s : State) : ∃ t, execPoll s = .next t ∧ EmitsRearming s t := by
  refine ⟨_, rfl, ?_⟩
  split
  · exact emitsRearming_perform_rearm (.rreg s.cfg.occAddr) (s.setRxLen 0)
  · next hovf =>
    refine .of_perform (not_needsRearm_rreg (eq_false_of_ne_true hovf) s.cfg.occAddr) ?_
    split
    · exact emitsRearming_refl _
    · exact pollSecond_emitsRearming _

/-- Settles O34: each path of POLL ends with REARM right after its overflow or burst, and no event before needs it. -/
theorem pollRearmsAfterReadOrOverflow : Obligations.PollRearmsAfterReadOrOverflow := by
  intro s
  obtain ⟨t, hexec, evs, htrace, hevs⟩ := execPoll_emitsRearming s
  exact ⟨t, evs, hexec, htrace, hevs⟩

end Sys2Proof.Machine
end

section
/-! PROOFS. The transceiver driver: INIT in both orders of its table and its probe (R145, R148), and POLL on each of
its five paths (R155 to R158), whatever `CHIP_OK`, `BAND` and `DRV_STATE` are (R159). -/

namespace Sys2Proof.Machine

open Sys2Proof

/-! ### INIT (R145, R148) -/

/-- The state at the end of INIT, with `BAND` set and the probe read, after the events `before`. -/
def State.probed (b : BitVec 1) (before : List BusRecord) (s : State) : State :=
  { s with
    u1 := { s.u1 with band := b }
    inp := { s.inp with ansPos := s.inp.ansPos + 1 }
    out := { s.out with trace := before ++ [⟨.rreg s.cfg.probeAddr, [s.nextAnswer]⟩] } }

theorem execInit_tableThenProbe {s : State} (hf : s.cfg.probeFirst = false) (b : BitVec 1) :
    execInit b s =
      .next (initFinish b s.nextAnswer (s.probed b (s.out.trace ++ tableEvents b s.cfg.table))) := by
  rw [execInit, hf, if_neg Bool.false_ne_true, State.writeTable_eq]
  rfl

theorem execInit_probeThenTable {s : State} (hf : s.cfg.probeFirst = true) (b : BitVec 1) :
    execInit b s = .next (initFinish b s.nextAnswer (s.probed b s.out.trace)) := by
  rw [execInit, hf, if_pos rfl]
  rfl

/-- Settles O29: after the table and the probe, the probe's byte decides which end INIT takes. -/
theorem initTableThenProbe : Obligations.InitTableThenProbe := by
  intro b s hf p table
  have hexec := execInit_tableThenProbe hf b
  refine ⟨fun hmatch => ?_, fun hmiss => ?_⟩
  · rw [initFinish_match (p := s.nextAnswer) (s := s.probed b _) hmatch hf, State.probed,
      List.append_assoc _ [_]] at hexec
    exact hexec
  · exact hexec.trans (congrArg Host.Outcome.next (initFinish_mismatch hmiss))

/-- Settles O30: after the probe, the table is written by the end that INIT takes on a match, and by no other. -/
theorem initProbeThenTable : Obligations.InitProbeThenTable := by
  intro b s hf p table
  have hexec := execInit_probeThenTable hf b
  refine ⟨fun hmatch => ?_, fun hmiss => ?_⟩
  · exact hexec.trans (congrArg Host.Outcome.next (initFinish_match_probeFirst hmatch hf))
  · exact hexec.trans (congrArg Host.Outcome.next (initFinish_mismatch hmiss))

/-! ### The paths of POLL (R155 to R158) -/

/-- POLL's state after its first occupancy read. -/
def State.pollRead (s : State) : State := (s.setRxLen 0).perform (.rreg s.cfg.occAddr)

theorem State.pollRead_eq (s : State) :
    s.pollRead =
      { s with
        u1 := { s.u1 with rxlen := 0 }
        inp := { s.inp with ansPos := s.inp.ansPos + 1 }
        out := { s.out with
          trace := s.out.trace ++ [⟨.rreg s.cfg.occAddr, [s.answerAt s.inp.ansPos]⟩] } } := rfl

section
variable {s : State}

theorem execPoll_overflow (hovf : occOverflow s.cfg (s.answerAt s.inp.ansPos) = true) :
    execPoll s = .next (s.pollRead.rearm.respond .noData 0) :=
  congrArg Host.Outcome.next (if_pos hovf)

theorem execPoll_empty (hovf : occOverflow s.cfg (s.answerAt s.inp.ansPos) = false)
    (hcnt : occCount s.cfg (s.answerAt s.inp.ansPos) = 0) :
    execPoll s = .next (s.pollRead.respond .noData 0) :=
  congrArg Host.Outcome.next ((if_neg (ne_true_of_eq_false hovf)).trans (if_pos hcnt))

/-- After a count that is not zero, POLL goes on to its second occupancy read. -/
theorem execPoll_settle (hovf : occOverflow s.cfg (s.answerAt s.inp.ansPos) = false)
    (hcnt : occCount s.cfg (s.answerAt s.inp.ansPos) ≠ 0) : execPoll s = .next (pollSecond s.pollRead) :=
  congrArg Host.Outcome.next ((if_neg (ne_true_of_eq_false hovf)).trans (if_neg hcnt))

theorem execPoll_overflowSettled (hovf : occOverflow s.cfg (s.answerAt s.inp.ansPos) = false)
    (hcnt : occCount s.cfg (s.answerAt s.inp.ansPos) ≠ 0)
    (hovf2 : occOverflow s.cfg (s.answerAt (s.inp.ansPos + 1)) = true) :
    execPoll s = .next (s.pollReads.rearm.respond .noData 0) :=
  (execPoll_settle hovf hcnt).trans (congrArg Host.Outcome.next (if_pos hovf2))

theorem execPoll_emptySettled (hovf : occOverflow s.cfg (s.answerAt s.inp.ansPos) = false)
    (hcnt : occCount s.cfg (s.answerAt s.inp.ansPos) ≠ 0)
    (hovf2 : occOverflow s.cfg (s.answerAt (s.inp.ansPos + 1)) = false)
    (hcnt2 : occCount s.cfg (s.answerAt (s.inp.ansPos + 1)) = 0) :
    execPoll s = .next (s.pollReads.respond .noData 0) :=
  (execPoll_settle hovf hcnt).trans
    (congrArg Host.Outcome.next ((if_neg (ne_true_of_eq_false hovf2)).trans (if_pos hcnt2)))

end

/-- Settles O31: the two paths of POLL that take one occupancy read. -/
theorem pollFirstRead : Obligations.PollFirstRead := by
  intro s a
  refine ⟨fun hovf => ?_, fun hovf hcnt => ?_⟩
  · rw [show exec .poll s = _ from execPoll_overflow hovf, State.rearm_eq, State.pollRead_eq, List.append_assoc]
    rfl
  · exact execPoll_empty hovf hcnt

/-- Settles O32: the two paths of POLL that end at the second occupancy read. -/
theorem pollSecondRead : Obligations.PollSecondRead := by
  intro s a b hovf hcnt
  refine ⟨fun hovf2 => ?_, fun hovf2 hcnt2 => ?_⟩
  · rw [show exec .poll s = _ from execPoll_overflowSettled hovf hcnt hovf2, State.rearm_eq, State.pollReads_eq,
      List.append_assoc]
    rfl
  · rw [show exec .poll s = _ from execPoll_emptySettled hovf hcnt hovf2 hcnt2, State.pollReads_eq]
    rfl

/-! ### The packet in RXBUF (R158) -/

/-- A list written from index 0 on stands there in order. -/
theorem Memory.read_writeList_zero {m : Memory} {bs : List Byte} (hm : Memory.wf 80 m = true) (hlen : bs.length ≤ 80)
    {k : Nat} {v : Byte} (hk : bs[k]? = some v) : Memory.read (Memory.writeList m 0 bs) k = v := by
  have hlt : k < bs.length := (List.getElem?_eq_some_iff.mp hk).1
  rw [Memory.read_writeList hm (by omega), if_pos (by omega), Nat.sub_zero, List.getD_eq_getElem?_getD, hk,
    Option.getD_some]

/-- A list written from index 0 on leaves the bytes above it. -/
theorem Memory.read_writeList_above {m : Memory} {bs : List Byte} (hm : Memory.wf 80 m = true)
    (hlen : bs.length ≤ 80) {k : Nat} (hk : bs.length ≤ k) :
    Memory.read (Memory.writeList m 0 bs) k = Memory.read m k := by
  rw [Memory.read_writeList hm (by omega), if_neg (by omega)]

/-- Settles O33: the burst's answer, from the third answer byte on, is what POLL stores and records. -/
theorem pollDrainsPacket : Obligations.PollDrainsPacket := by
  intro s hwf a b n hovf hcnt hovf2 hcnt2
  have hlen : (s.pollReads.answerBytes n).length = n := State.answerBytes_length ..
  have hbs : ∀ k < n, (s.pollReads.answerBytes n)[k]? = some (s.answerAt (s.inp.ansPos + 2 + k)) :=
    fun _ => State.answerBytes_getElem?
  have hfits : (s.pollReads.answerBytes n).length ≤ 80 := hlen.trans_le (Nat.min_le_right ..)
  have hexec : exec .poll s = .next (pollDrain (burstLen (occCount s.cfg b)) s.pollReads) :=
    execPoll_packet hovf hcnt hovf2 hcnt2
  rw [pollDrain_eq, State.pollReads_eq, List.append_assoc] at hexec
  exact ⟨_, s.pollReads.answerBytes n, hexec, hlen, hbs, rfl, rfl, rfl, rfl, rfl, rfl, rfl, rfl, rfl,
    fun k hk => Memory.read_writeList_zero hwf hfits (hbs k hk),
    fun k hk => Memory.read_writeList_above hwf hfits (hlen.trans_le hk), rfl, rfl⟩

/-! ### POLL is not gated (R159) -/

/-- The state with other values of the three registers that INIT sets and POLL does not read. -/
def State.withGate (c : Bool) (b : BitVec 1) (d : DrvState) (s : State) : State :=
  { s with u1 := { s.u1 with chipOk := c, band := b, drvState := d } }

/-- POLL commutes with a change of `CHIP_OK`, `BAND` and `DRV_STATE`, but that a re-arm sets `DRV_STATE`. -/
theorem execPoll_withGate (s : State) (c : Bool) (b : BitVec 1) (d : DrvState) :
    ∃ t d', execPoll s = .next t ∧ execPoll (s.withGate c b d) = .next (t.withGate c b d') ∧
      ((t.u1.drvState = .armed ∧ d' = .armed) ∨ (t.u1.drvState = s.u1.drvState ∧ d' = d)) := by
  cases hovf : occOverflow s.cfg (s.answerAt s.inp.ansPos) with
  | true => exact ⟨_, _, execPoll_overflow hovf, execPoll_overflow hovf, .inl ⟨rfl, rfl⟩⟩
  | false =>
    by_cases hcnt : occCount s.cfg (s.answerAt s.inp.ansPos) = 0
    · exact ⟨_, _, execPoll_empty hovf hcnt, execPoll_empty hovf hcnt, .inr ⟨rfl, rfl⟩⟩
    · cases hovf2 : occOverflow s.cfg (s.answerAt (s.inp.ansPos + 1)) with
      | true =>
        exact ⟨_, _, execPoll_overflowSettled hovf hcnt hovf2, execPoll_overflowSettled hovf hcnt hovf2,
          .inl ⟨rfl, rfl⟩⟩
      | false =>
        by_cases hcnt2 : occCount s.cfg (s.answerAt (s.inp.ansPos + 1)) = 0
        · exact ⟨_, _, execPoll_emptySettled hovf hcnt hovf2 hcnt2, execPoll_emptySettled hovf hcnt hovf2 hcnt2,
            .inr ⟨rfl, rfl⟩⟩
        · exact ⟨_, _, execPoll_packet hovf hcnt hovf2 hcnt2, execPoll_packet hovf hcnt hovf2 hcnt2,
            .inl ⟨rfl, rfl⟩⟩

/-- Settles O35: the two runs end in states that differ by the three registers only. -/
theorem pollIsNotGated : Obligations.PollIsNotGated := by
  intro s c b d s'
  obtain ⟨t, d', hexec, hexec', hdrv⟩ := execPoll_withGate s c b d
  exact ⟨t, t.withGate c b d', hexec, hexec', rfl, rfl, rfl, rfl, rfl, rfl, hdrv⟩

end Sys2Proof.Machine
end

section
/-! PROOFS. The CRC-8 of R172 and R173: one shift and one step in plain arithmetic, the CRC engine's micro-operations
(R174 to R177), and the CRC's algebra (R178). -/

namespace Sys2Proof.Machine

open Sys2Proof

/-! ### The CRC engine (R174 to R177) -/

/-- Settles O37: each operation drives the port of the CRC engine, and nothing else. -/
theorem crcMicroOperations : Obligations.CrcMicroOperations :=
  fun _ _ => ⟨rfl, rfl, rfl, rfl⟩

/-! ### The step in plain arithmetic (R173) -/

/-- One shift as R173 says it of numbers: double, and subtract 0x131 without carries when bit 7 was set. -/
def crcShiftNat (x : Nat) : Nat := if 128 ≤ x then (2 * x) ^^^ 0x131 else 2 * x

/-- The doubled register and 0x131 both have bit 8 set, so their difference without carries is a byte. -/
theorem double_xor_poly_lt {x : Nat} (hlo : 128 ≤ x) (hhi : x < 256) : (2 * x) ^^^ 0x131 < 2 ^ 8 := by
  have hbit : 2 * x / 2 ^ 8 = 1 := by omega
  refine Nat.lt_of_div_eq_zero (Nat.two_pow_pos 8) ?_
  rw [Nat.xor_div_two_pow, hbit]
  rfl

theorem crc8Shift_toNat (c : Byte) : (crc8Shift c).toNat = crcShiftNat c.toNat := by
  have hmsb : c.getLsbD 7 = decide (128 ≤ c.toNat) := c.msb_eq_decide
  have hshift : (c <<< 1).toNat = 2 * c.toNat % 2 ^ 8 := by
    rw [BitVec.toNat_shiftLeft, Nat.shiftLeft_eq, Nat.mul_comm, Nat.pow_one]
  rw [crc8Shift, crcShiftNat, hmsb]
  by_cases hc : 128 ≤ c.toNat
  · rw [if_pos (decide_eq_true hc), if_pos hc, BitVec.toNat_xor, hshift]
    calc 2 * c.toNat % 2 ^ 8 ^^^ (0x31#8).toNat
        = ((2 * c.toNat) ^^^ 0x131) % 2 ^ 8 :=
          (Nat.xor_mod_two_pow (a := 2 * c.toNat) (b := 0x131) (n := 8)).symm
      _ = (2 * c.toNat) ^^^ 0x131 := Nat.mod_eq_of_lt (double_xor_poly_lt hc c.isLt)
  · rw [if_neg (by simpa using hc), if_neg hc, hshift]
    omega

theorem crc8Shifts_toNat : ∀ (k : Nat) (c : Byte), (crc8Shifts k c).toNat = crcShiftNat^[k] c.toNat
  | 0, _ => rfl
  | k + 1, c => by rw [crc8Shifts, crc8Shifts_toNat k, crc8Shift_toNat, Function.iterate_succ_apply]

theorem crc8Step_toNat (c d : Byte) : (crc8Step c d).toNat = crcShiftNat^[8] (c.toNat ^^^ d.toNat) := by
  rw [crc8Step, crc8Shifts_toNat, BitVec.toNat_xor]

/-- The step depends on the xor of its arguments only (R173, table form). -/
theorem crc8Step_eq_zero_xor (c d : Byte) : crc8Step c d = crc8Step 0#8 (c ^^^ d) := by
  rw [crc8Step, crc8Step, BitVec.zero_xor]

/-- Settles O38: eight shifts as numbers, the table form, and the listed entries by evaluation. -/
theorem crcStepArithmetic : Obligations.CrcStepArithmetic :=
  ⟨crc8Step_toNat, crc8Step_eq_zero_xor, by decide, by decide, by decide, by decide, by decide, by decide⟩

/-! ### The CRC of a list (R172, R178) -/

/-- Settles O39: the list is folded from the left, and the check value is evaluated. -/
theorem crcOfAList : Obligations.CrcOfAList :=
  ⟨rfl, crc8_append_singleton, by decide +kernel⟩

theorem crc8_append_cons (before after : List Byte) (x : Byte) :
    crc8 (before ++ x :: after) = after.foldl crc8Step (crc8Step (crc8 before) x) := by
  simp only [crc8, List.foldl_append, List.foldl_cons]

/-- The fold over two lists of one length is linear over xor, from any two registers (R178 c). -/
theorem foldl_crc8Step_zipWith_xor : ∀ (a b : List Byte) (c c' : Byte), a.length = b.length →
    (List.zipWith (· ^^^ ·) a b).foldl crc8Step (c ^^^ c') = a.foldl crc8Step c ^^^ b.foldl crc8Step c'
  | [], [], _, _, _ => rfl
  | x :: a, y :: b, c, c', h => by
    rw [List.zipWith_cons_cons, List.foldl_cons, List.foldl_cons, List.foldl_cons, crc8Step_xor]
    exact foldl_crc8Step_zipWith_xor a b _ _ (Nat.succ.inj h)

theorem crc8_zero_cons (m : List Byte) : crc8 (0#8 :: m) = crc8 m := by
  rw [crc8, List.foldl_cons, crc8Step_zero_zero, crc8]

theorem crc8_replicate_zero : ∀ n : Nat, crc8 (List.replicate n 0#8) = 0#8
  | 0 => rfl
  | n + 1 => by rw [List.replicate_succ, crc8_zero_cons, crc8_replicate_zero n]

/-- Settles O40: a byte equal to the register clears it, a step is linear, and a zero byte leaves a zero register. -/
theorem crcAlgebra : Obligations.CrcAlgebra :=
  ⟨fun m => by rw [crc8_append_singleton, crc8Step_self],
    fun a b h => foldl_crc8Step_zipWith_xor a b 0#8 0#8 h, crc8_zero_cons, crc8_replicate_zero⟩

/-- Settles O41: the register differs after the changed byte, and equal bytes after it keep two registers apart. -/
theorem crcSeesOneChangedByte : Obligations.CrcSeesOneChangedByte := by
  intro before after x y hne heq
  rw [crc8_append_cons, crc8_append_cons] at heq
  exact hne (crc8Step_inj_right (foldl_crc8Step_inj heq))

/-- Replacing one byte of a list by another value changes the CRC. -/
theorem crc8_set_ne {bs : List Byte} {k : Nat} {v : Byte} (hk : k < bs.length) (hv : v ≠ bs[k]) :
    crc8 (bs.set k v) ≠ crc8 bs := by
  have hbs : bs = bs.take k ++ bs[k] :: bs.drop (k + 1) := by simp
  have hset : bs.set k v = bs.take k ++ v :: bs.drop (k + 1) := by
    rw [List.set_eq_take_append_cons_drop, if_pos hk]
  rw [hset, congrArg crc8 hbs]
  exact crcSeesOneChangedByte _ _ _ _ hv

/-- A list ends in its own CRC exactly when its CRC is 0 (R178 b). -/
theorem crc8_append_singleton_eq_zero_iff (m : List Byte) (b : Byte) : crc8 (m ++ [b]) = 0#8 ↔ crc8 m = b := by
  rw [crc8_append_singleton]
  constructor
  · intro h
    exact crc8Step_inj_right ((crc8Step_self (crc8 m)).trans h.symm)
  · rintro rfl
    exact crc8Step_self _

end Sys2Proof.Machine
end

section
/-! PROOFS. DECODE (R180): the latches of an accepted packet (R187 to R197), what its outcome depends on (R170), and
that one changed byte is always seen (R178). -/

namespace Sys2Proof.Machine

open Sys2Proof

/-! ### The three ends of DECODE (R180 to R182) -/

/-- The state with the packet's CRC in the CRC register. -/
def State.withPacketCrc (s : State) : State := { s with u2 := { s.u2 with crc8 := packetCrc s } }

section
variable {s : State}

theorem execDecode_short (hlen : ¬ 17 ≤ s.u1.rxlen.val) : execDecode s = .next (decodeReject .eTooShort s) :=
  congrArg Host.Outcome.next (if_pos (Nat.lt_of_not_le hlen))

theorem execDecode_mismatch (hlen : 17 ≤ s.u1.rxlen.val) (hcrc : packetCrc s ≠ packetLast s) :
    execDecode s = .next (decodeReject .eWxChecksum s.withPacketCrc) :=
  (execDecode_long hlen).trans (congrArg Host.Outcome.next (if_neg hcrc))

theorem execDecode_accepted (hlen : 17 ≤ s.u1.rxlen.val) (hcrc : packetCrc s = packetLast s) :
    execDecode s = .next (decodeAccept s.u1.rxlen.val s.withPacketCrc) :=
  (execDecode_long hlen).trans (congrArg Host.Outcome.next (if_pos hcrc))

end

/-! ### An accepted packet (R183, R187 to R197) -/

/-- The warning as response data: 0 for the expected family, 1 for another (R183). -/
theorem familyWarnOf_data (c : Cfg) (b0 : Byte) :
    (BitVec.ofBool (familyWarnOf c b0)).zeroExtend 32 = if b0 = c.familyExpected then 0#32 else 1#32 := by
  by_cases hb : b0 = c.familyExpected
  · rw [familyWarnOf, if_pos hb, bne_eq_false_iff_eq.mpr hb]
    rfl
  · rw [familyWarnOf, if_neg hb, bne_iff_ne.mpr hb]
    rfl

theorem wxLuxOf_toNat (m : Memory) (n : Nat) :
    (wxLuxOf m n).toNat =
      if 20 ≤ n then
        (Memory.read m 16).toNat * 16777216 + (Memory.read m 17).toNat * 65536 +
          (Memory.read m 18).toNat * 256 + (Memory.read m 19).toNat
      else 0 := by
  rw [wxLuxOf, apply_ite BitVec.toNat, be32_toNat]
  rfl

/-- Settles O44: the fields of `decodeAccept`, and each field of the reading as a number. -/
theorem decodeAcceptsFrame : Obligations.DecodeAcceptsFrame := by
  intro s n b c hlen hcrc
  refine ⟨_, execDecode_accepted hlen hcrc, rfl, rfl, rfl, rfl, rfl, rfl, rfl, rfl, rfl, ?_, rfl, ?_⟩
  · exact congrArg (fun d => some (Rsp.mk .ok d)) (familyWarnOf_data s.cfg (Memory.read s.u1.rxbuf 0))
  · refine ⟨wxTempOf_toInt _ _, rfl, ?_, wxSpeedOf_toNat _, wxSpeedOf_toNat _, be24_toNat _ _, rfl,
      wxLuxOf_toNat _ _, rfl, rfl⟩
    exact (wxDirOf_toNat _).trans (by rw [be16_toNat]; rfl)

/-! ### What DECODE depends on (R170) -/

/-- Two states with the same configuration and the same packet. -/
structure SamePacket (s s' : State) : Prop where
  cfg : s'.cfg = s.cfg
  rxlen : s'.u1.rxlen = s.u1.rxlen
  bytes : ∀ k < s.u1.rxlen.val, Memory.read s'.u1.rxbuf k = Memory.read s.u1.rxbuf k

/-- A reading of at least 17 bytes sees only those bytes, and `now` in its time only. -/
theorem wxReadingOf_congr (c : Cfg) {m m' : Memory} {n : Nat} (now now' : Nat) (hn : 17 ≤ n)
    (h : ∀ k < n, Memory.read m' k = Memory.read m k) :
    wxReadingOf c m' n now' = { wxReadingOf c m n now with time := now' } := by
  have hlow : ∀ k < 17, Memory.read m' k = Memory.read m k := fun k hk => h k (by omega)
  have hlux : wxLuxOf m' n = wxLuxOf m n := by
    unfold wxLuxOf
    split
    · next h20 =>
      have hfield : ∀ k < 20, Memory.read m' k = Memory.read m k := fun k hk => h k (by omega)
      simp [be32, hfield]
    · rfl
  simp [wxReadingOf, be16, be24, hlow, hlux]

namespace SamePacket
variable {s s' : State} (h : SamePacket s s')
include h

theorem packetCrc_eq : packetCrc s' = packetCrc s := by
  rw [packetCrc, packetCrc, h.rxlen, State.rxBytes_congr fun k hk => h.bytes k (by omega)]

theorem packetLast_eq (hlen : 17 ≤ s.u1.rxlen.val) : packetLast s' = packetLast s := by
  rw [packetLast, packetLast, h.rxlen, h.bytes _ (by omega)]

theorem familyWarnOf_eq (hlen : 17 ≤ s.u1.rxlen.val) :
    familyWarnOf s'.cfg (Memory.read s'.u1.rxbuf 0) = familyWarnOf s.cfg (Memory.read s.u1.rxbuf 0) := by
  rw [h.cfg, h.bytes 0 (by omega)]

theorem wxReadingOf_eq (hlen : 17 ≤ s.u1.rxlen.val) (now now' : Nat) :
    wxReadingOf s'.cfg s'.u1.rxbuf s'.u1.rxlen.val now' =
      { wxReadingOf s.cfg s.u1.rxbuf s.u1.rxlen.val now with time := now' } := by
  rw [h.cfg, h.rxlen]
  exact wxReadingOf_congr s.cfg now now' hlen h.bytes

theorem sampleNow_eq (hnow : s'.inp.now = s.inp.now) : s'.sampleNow = s.sampleNow := by
  rw [State.sampleNow, State.sampleNow, h.cfg, hnow]

end SamePacket

/-- Settles O45: both states take the same one of DECODE's three ends. -/
theorem decodeIsPure : Obligations.DecodeIsPure := by
  intro s s' hcfg hrx hbytes
  have h : SamePacket s s' := ⟨hcfg, hrx, hbytes⟩
  by_cases hlen : 17 ≤ s.u1.rxlen.val
  · have hlen' : 17 ≤ s'.u1.rxlen.val := hrx ▸ hlen
    by_cases hcrc : packetCrc s = packetLast s
    · have hcrc' : packetCrc s' = packetLast s' := by rw [h.packetCrc_eq, hcrc, h.packetLast_eq hlen]
      refine ⟨_, _, execDecode_accepted hlen hcrc, execDecode_accepted hlen' hcrc', rfl, rfl, ?_, rfl,
        fun _ => h.packetCrc_eq, fun _ => ⟨h.familyWarnOf_eq hlen, h.wxReadingOf_eq hlen _ _, h.sampleNow_eq⟩⟩
      exact congrArg (fun w => some (Rsp.mk .ok ((BitVec.ofBool w).zeroExtend 32))) (h.familyWarnOf_eq hlen)
    · have hcrc' : packetCrc s' ≠ packetLast s' := by rwa [h.packetCrc_eq, h.packetLast_eq hlen]
      exact ⟨_, _, execDecode_mismatch hlen hcrc, execDecode_mismatch hlen' hcrc', rfl, rfl, rfl, rfl,
        fun _ => h.packetCrc_eq, fun hok => absurd hok (show ¬ 0x21#8 = 0x00#8 by decide)⟩
  · have hlen' : ¬ 17 ≤ s'.u1.rxlen.val := hrx ▸ hlen
    exact ⟨_, _, execDecode_short hlen, execDecode_short hlen', rfl, rfl, rfl, rfl,
      fun hle => absurd hle hlen, fun hok => absurd hok (show ¬ 0x20#8 = 0x00#8 by decide)⟩

/-! ### One changed byte (R178, R182) -/

theorem State.rxBytes_succ (s : State) (n : Nat) : s.rxBytes (n + 1) = s.rxBytes n ++ [Memory.read s.u1.rxbuf n] := by
  simp only [State.rxBytes, List.range_succ, List.map_append, List.map_singleton]

/-- The CRC check is one on all bytes of the packet: their CRC is 0 (R178 b). -/
theorem packetCrc_eq_packetLast_iff {s : State} (hlen : 17 ≤ s.u1.rxlen.val) :
    packetCrc s = packetLast s ↔ crc8 (s.rxBytes s.u1.rxlen.val) = 0#8 := by
  obtain ⟨n, hn⟩ := Nat.exists_eq_add_of_le' (Nat.one_le_of_lt hlen)
  rw [packetCrc, packetLast, hn, State.rxBytes_succ, crc8_append_singleton_eq_zero_iff, Nat.add_sub_cancel]

/-- The state with one byte of its receive buffer replaced. -/
def State.withRxByte (k : Nat) (v : Byte) (s : State) : State :=
  { s with u1 := { s.u1 with rxbuf := Memory.write s.u1.rxbuf k v } }

theorem State.rxBytes_withRxByte {s : State} (hwf : Memory.wf 80 s.u1.rxbuf = true) (n k : Nat) (v : Byte) :
    (s.withRxByte k v).rxBytes n = (s.rxBytes n).set k v := by
  refine List.ext_getElem (by simp) fun j _ _ => ?_
  simp only [List.getElem_set, State.rxBytes, List.getElem_map, List.getElem_range, @eq_comm _ k j]
  exact Memory.read_write hwf

/-- A packet that passes the CRC check fails it when one byte is replaced by another value. -/
theorem packetCrc_withRxByte_ne {s : State} {k : Nat} {v : Byte} (hwf : Memory.wf 80 s.u1.rxbuf = true)
    (hlen : 17 ≤ s.u1.rxlen.val) (hcrc : packetCrc s = packetLast s) (hk : k < s.u1.rxlen.val)
    (hv : v ≠ Memory.read s.u1.rxbuf k) : packetCrc (s.withRxByte k v) ≠ packetLast (s.withRxByte k v) := by
  have hzero : crc8 (s.rxBytes s.u1.rxlen.val) = 0#8 := (packetCrc_eq_packetLast_iff hlen).mp hcrc
  have hne : crc8 ((s.rxBytes s.u1.rxlen.val).set k v) ≠ crc8 (s.rxBytes s.u1.rxlen.val) :=
    crc8_set_ne (by simpa using hk) (by simpa [State.rxBytes] using hv)
  rw [Ne, packetCrc_eq_packetLast_iff (s := s.withRxByte k v) hlen, State.rxBytes_withRxByte hwf, ← hzero]
  exact hne

/-- Settles O46: the packet's CRC as a whole is no longer 0, so DECODE takes its mismatch end. -/
theorem decodeRejectsOneChangedByte : Obligations.DecodeRejectsOneChangedByte :=
  fun s k v hwf hlen hcrc hk hv =>
    ⟨_, execDecode_mismatch (s := s.withRxByte k v) hlen (packetCrc_withRxByte_ne hwf hlen hcrc hk hv), rfl, rfl, rfl⟩

end Sys2Proof.Machine
end

section
/-! PROOFS. PUSH byte by byte (R214 to R218), the particulate reading as numbers (R221, R222), and what the commands of
either path leave of the other's state (R210). -/

namespace Sys2Proof.Machine

open Sys2Proof

/-! ### The two paths (R210) -/

/-- Only INIT and POLL emit events or take answers. -/
theorem exec_trace_inp_of_not_init_poll {i : Instr} {s t : State} (hi : i.isHost = true) (hinit : ∀ b, i ≠ .init b)
    (hpoll : i ≠ .poll) (h : exec i s = .next t) : t.out.trace = s.out.trace ∧ t.inp = s.inp := by
  cases i with
  | init b => exact absurd rfl (hinit b)
  | poll => exact absurd rfl hpoll
  | decode => cases execDecode_step h <;> exact ⟨rfl, rfl⟩
  | push d => cases execPush_step h <;> exact ⟨rfl, rfl⟩
  | rd | rdbuf | ldbuf => cases h; split <;> exact ⟨rfl, rfl⟩
  | clrbuf => cases h; exact ⟨rfl, rfl⟩
  | _ => exact absurd hi Bool.false_ne_true

/-- Settles O24: PUSH has no case that writes U1 or U2, and no other host command writes what PUSH reads. -/
theorem pathsAreIndependent : Obligations.PathsAreIndependent := by
  intro i s t hi h
  refine ⟨?_, fun hpush => ?_, fun ⟨hinit, hpoll⟩ => exec_trace_inp_of_not_init_poll hi hinit hpoll h⟩
  · rintro ⟨d, rfl⟩
    obtain ⟨hu1, hu2, -⟩ := (execPush_step h).frame
    exact ⟨hu1, hu2⟩
  · have hsame := exec_sameFrame_of_not_push hi hpush h
    exact ⟨hsame.u3.symm, hsame.sum16.symm⟩

/-! ### The header and the bytes after it (R214 to R217) -/

/-- Settles O49: the two cases of PUSH in `S_FIRST`. -/
theorem pushAwaitingFirstHeader : Obligations.PushAwaitingFirstHeader := by
  refine fun s d hsync => ⟨fun hd hwf => ?_, fun hd => (PushStep.skipped hsync hd).execPush_eq⟩
  exact ⟨_, fun k => by rw [Memory.read_write hwf, hd], (PushStep.firstHeader hsync hd).execPush_eq⟩

/-- Settles O50: the two cases of PUSH in `S_SECOND`. -/
theorem pushAwaitingSecondHeader : Obligations.PushAwaitingSecondHeader := by
  refine fun s d hsync => ⟨fun hd hwf hsum => ?_, fun hd => (PushStep.lost hsync hd).execPush_eq⟩
  have hpush : exec (.push d) s = _ := (PushStep.secondHeader hsync hd).execPush_eq
  rw [hsum] at hpush
  exact ⟨_, fun k => by rw [Memory.read_write hwf, hd], hpush⟩

/-- Settles O51: the case of PUSH in `S_ACC` below index 31. -/
theorem pushAccumulates : Obligations.PushAccumulates := by
  intro s d hcur hsync hwf
  have hpush : exec (.push d) s = _ := (PushStep.stored hsync hcur).execPush_eq
  rw [← hsync] at hpush
  exact ⟨_, fun k => Memory.read_write hwf, hpush⟩

/-! ### The particulate reading (R221, R222) -/

theorem Cfg.offsetsWf_mass {c : Cfg} (hc : c.offsetsWf = true) (j : Fin 3) : fieldOffsetWf c.pmMassOff[j] = true := by
  simp only [Cfg.offsetsWf, Bool.and_eq_true] at hc
  fin_cases j <;> simp [hc]

theorem Cfg.offsetsWf_cnt {c : Cfg} (hc : c.offsetsWf = true) (j : Fin 6) : fieldOffsetWf c.pmCntOff[j] = true := by
  simp only [Cfg.offsetsWf, Bool.and_eq_true] at hc
  fin_cases j <;> simp [hc]

theorem pmReadingOf_mass (c : Cfg) (f : Memory) (now : Nat) (j : Fin 3) :
    (pmReadingOf c f now).mass[j] = be16 f c.pmMassOff[j] := by
  fin_cases j <;> rfl

theorem pmReadingOf_cnt (c : Cfg) (f : Memory) (now : Nat) (j : Fin 6) :
    (pmReadingOf c f now).cnt[j] = be16 f c.pmCntOff[j] := by
  fin_cases j <;> rfl

/-- A field at a well-formed offset is made of bytes below index 30. -/
theorem be16_toNat_of_offsetWf {m : Memory} {o : Nat} {b : Nat → Nat} (ho : fieldOffsetWf o = true)
    (hb : ∀ k < 30, (Memory.read m k).toNat = b k) : (be16 m o).toNat = b o * 256 + b (o + 1) := by
  obtain ⟨-, hle⟩ := fieldOffsetWf_bounds ho
  rw [be16_toNat, hb o (by omega), hb (o + 1) (by omega)]

/-- The nine fields of a reading are the big-endian fields of the frame's bytes below index 30. -/
theorem pmReadingOf_fields {c : Cfg} {m : Memory} {now : Nat} {b : Nat → Nat} (hc : c.offsetsWf = true)
    (hb : ∀ k < 30, (Memory.read m k).toNat = b k) :
    (∀ j : Fin 3, (pmReadingOf c m now).mass[j].toNat = b c.pmMassOff[j] * 256 + b (c.pmMassOff[j] + 1)) ∧
    (∀ j : Fin 6, (pmReadingOf c m now).cnt[j].toNat = b c.pmCntOff[j] * 256 + b (c.pmCntOff[j] + 1)) := by
  constructor
  · intro j
    rw [pmReadingOf_mass, be16_toNat_of_offsetWf (Cfg.offsetsWf_mass hc j) hb]
  · intro j
    rw [pmReadingOf_cnt, be16_toNat_of_offsetWf (Cfg.offsetsWf_cnt hc j) hb]

/-! ### The last byte (R218) -/

/-- The sum compare of a completed frame, as numbers. -/
theorem sum_eq_be16_write_last_iff {m : Memory} {d : Byte} {x : BitVec 16} (hm : Memory.wf 32 m = true) :
    x = be16 (Memory.write m 31 d) 30 ↔ x.toNat = (Memory.read m 30).toNat * 256 + d.toNat := by
  rw [← be16_write_last d hm, BitVec.toNat_inj]

/-- Settles O52: the sum compare decides which of the two ends of a frame PUSH takes. -/
theorem pushCompletesFrame : Obligations.PushCompletesFrame := by
  intro s d hsync hcur hwf hc b
  by_cases hsum : s.sum16 = be16 (Memory.write s.u3.fbuf 31 d) 30
  · have hnat := (sum_eq_be16_write_last_iff hwf).mp hsum
    have hfields := pmReadingOf_fields (m := Memory.write s.u3.fbuf 31 d) (now := s.sampleNow) (b := b) hc
      fun k hk => by rw [Memory.read_write hwf, if_neg (by omega)]
    exact ⟨_, (PushStep.valid hsync hcur hsum).execPush_eq, rfl, rfl, rfl, rfl, rfl, rfl, rfl, rfl,
      fun k => Memory.read_write hwf, fun _ => ⟨rfl, rfl, rfl, hfields.1, hfields.2, rfl⟩, absurd hnat⟩
  · have hnat := mt (sum_eq_be16_write_last_iff hwf).mpr hsum
    exact ⟨_, (PushStep.invalid hsync hcur hsum).execPush_eq, rfl, rfl, rfl, rfl, rfl, rfl, rfl, rfl,
      fun k => Memory.read_write hwf, fun heq => absurd heq hnat, fun _ => ⟨rfl, rfl, rfl⟩⟩

end Sys2Proof.Machine
end

section
/-! PROOFS. Streams of PUSH bytes: a whole frame from `S_FIRST` (R212, R218, R221, R222), and the return to the empty
assembly from any state (R226). -/

namespace Sys2Proof.Machine

open Sys2Proof

/-! ### A whole frame (R212) -/

theorem Memory.writeList_snoc (d : Byte) : ∀ (bs : List Byte) (m : Memory) (k : Nat),
    Memory.writeList m k (bs ++ [d]) = Memory.write (Memory.writeList m k bs) (k + bs.length) d
  | [], _, _ => rfl
  | b :: bs, m, k => by
    rw [List.cons_append, Memory.writeList, Memory.writeList_snoc d bs, Memory.writeList, List.length_cons,
      Nat.add_right_comm, Nat.add_assoc]

/-- From `s` on, U3 has received the bytes `xs` of a frame, both header bytes among them, and U4 has summed those
below index 30. -/
structure Received (s : State) (xs : List Byte) (t : State) : Prop where
  sync : t.u3.syncState = .acc
  cur : t.u3.cur.val = xs.length
  fbuf : t.u3.fbuf = Memory.writeList s.u3.fbuf 0 xs
  sum : t.sum16 = BitVec.ofNat 16 ((xs.take 30).map BitVec.toNat).sum
  cfg : t.cfg = s.cfg
  reading : t.u3.reading = s.u3.reading

theorem runInstrs_pushN_cons {d : Byte} {ds : List Byte} {s t : State} (h : PushStep d s t) :
    runInstrs (pushN (d :: ds)) s = runInstrs (pushN ds) t :=
  runInstrs_cons (i := .push d) h.execPush_eq

theorem runInstrs_pushN_append {xs ys : List Byte} {s t : State} (h : runInstrs (pushN xs) s = .next t) :
    runInstrs (pushN (xs ++ ys)) s = runInstrs (pushN ys) t := by
  rw [pushN, List.map_append]
  exact runInstrs_append h

/-- The header, from `S_FIRST`. -/
theorem received_header {s : State} (hsync : s.u3.syncState = .first) :
    ∃ t, runInstrs (pushN [0x42#8, 0x4D#8]) s = .next t ∧ Received s [0x42#8, 0x4D#8] t :=
  ⟨_, (runInstrs_pushN_cons (.firstHeader hsync rfl)).trans (runInstrs_pushN_cons (.secondHeader rfl rfl)),
    rfl, rfl, rfl, rfl, rfl, rfl⟩

/-- U4 sums a byte below index 30 and no other (R217). -/
theorem sum_take_snoc (xs : List Byte) (d : Byte) :
    BitVec.ofNat 16 (((xs ++ [d]).take 30).map BitVec.toNat).sum =
      if xs.length < 30 then BitVec.ofNat 16 ((xs.take 30).map BitVec.toNat).sum + d.zeroExtend 16
      else BitVec.ofNat 16 ((xs.take 30).map BitVec.toNat).sum := by
  split
  · next h30 =>
    rw [List.take_of_length_le (by simpa using h30), List.take_of_length_le (by omega), List.map_append,
      List.sum_append, BitVec.ofNat_add]
    simp
  · next h30 => rw [List.take_append_of_le_length (by omega)]

/-- One more byte that is not the frame's last. -/
theorem Received.snoc {s t : State} {xs : List Byte} (h : Received s xs t) (hlen : xs.length < 31) (d : Byte) :
    ∃ u, PushStep d t u ∧ Received s (xs ++ [d]) u := by
  have hcur : t.u3.cur.val < 31 := h.cur ▸ hlen
  refine ⟨_, .stored h.sync hcur, rfl, ?_, ?_, ?_, h.cfg, h.reading⟩
  · simp [h.cur]
  · rw [Memory.writeList_snoc, ← h.fbuf, ← h.cur, Nat.zero_add]
  · rw [sum_take_snoc, ← h.sum, ← h.cur]

/-- Any bytes that leave room for the frame's last. -/
theorem Received.append : ∀ {ds xs : List Byte} {s t : State}, Received s xs t → xs.length + ds.length ≤ 31 →
    ∃ u, runInstrs (pushN ds) t = .next u ∧ Received s (xs ++ ds) u
  | [], xs, s, t, h, _ => ⟨t, rfl, by rwa [List.append_nil]⟩
  | d :: ds, xs, s, t, h, hlen => by
    rw [List.length_cons] at hlen
    obtain ⟨p, hpush, hp⟩ := h.snoc (by omega) d
    obtain ⟨u, hrun, hu⟩ := hp.append (ds := ds) (by rw [List.length_append, List.length_singleton]; omega)
    refine ⟨u, (runInstrs_pushN_cons hpush).trans hrun, ?_⟩
    rwa [List.append_assoc] at hu

/-- The bytes received stand in FBUF. -/
theorem Received.read {s t : State} {xs : List Byte} {k : Nat} (h : Received s xs t)
    (hwf : Memory.wf 32 s.u3.fbuf = true) (hlen : xs.length ≤ 32) (hk : k < xs.length) :
    Memory.read t.u3.fbuf k = xs.getD k 0 := by
  rw [h.fbuf, Memory.read_writeList hwf (by omega), if_pos (by omega), Nat.sub_zero]

/-- The sum of the header and 28 bytes stays below the modulus (R220). -/
theorem header_sum_lt {ds : List Byte} (hlen : ds.length = 28) :
    0x42 + 0x4D + (ds.map BitVec.toNat).sum < 65536 := by
  have hle : (ds.map BitVec.toNat).sum ≤ (ds.map BitVec.toNat).length • 255 := by
    refine List.sum_le_card_nsmul _ _ fun n hn => ?_
    obtain ⟨d, -, rfl⟩ := List.mem_map.mp hn
    have := d.isLt
    omega
  rw [List.length_map, hlen, smul_eq_mul] at hle
  omega

/-- The sum of a frame of which only the last byte is missing. -/
theorem Received.sum_toNat {s t : State} {ds : List Byte} {hi : Byte}
    (h : Received s ([0x42#8, 0x4D#8] ++ (ds ++ [hi])) t) (hlen : ds.length = 28) :
    t.sum16.toNat = 0x42 + 0x4D + (ds.map BitVec.toNat).sum := by
  have htake : ([0x42#8, 0x4D#8] ++ (ds ++ [hi])).take 30 = [0x42#8, 0x4D#8] ++ ds := by
    rw [← List.append_assoc, List.take_append_of_le_length (by simp [hlen]), List.take_of_length_le (by simp [hlen])]
  rw [h.sum, htake, List.map_append, List.sum_append, BitVec.toNat_ofNat]
  exact Nat.mod_eq_of_lt (header_sum_lt hlen)

/-- All of a frame but its last byte, from `S_FIRST`. -/
theorem received_of_first {s : State} {ds : List Byte} (hsync : s.u3.syncState = .first) (hlen : ds.length ≤ 29) :
    ∃ t, runInstrs (pushN ([0x42#8, 0x4D#8] ++ ds)) s = .next t ∧ Received s ([0x42#8, 0x4D#8] ++ ds) t := by
  obtain ⟨p, hheader, hp⟩ := received_header hsync
  obtain ⟨t, hrun, ht⟩ := hp.append (ds := ds) (by simp; omega)
  exact ⟨t, (runInstrs_pushN_append hheader).trans hrun, ht⟩

/-- Settles O54: 31 bytes are received, and the last one completes the frame as O52 says. -/
theorem streamedFrameIsRead : Obligations.StreamedFrameIsRead := by
  intro s ds hi lo hsync hwf hc hlen frame b
  obtain ⟨q, hrun, hq⟩ := received_of_first (ds := ds ++ [hi]) hsync (by simp [hlen])
  have hframe : frame = ([0x42#8, 0x4D#8] ++ (ds ++ [hi])) ++ [lo] := by simp [frame]
  have h31 : ([0x42#8, 0x4D#8] ++ (ds ++ [hi])).length = 31 := by simp [hlen]
  have hqwf : Memory.wf 32 q.u3.fbuf = true := by
    rw [hq.fbuf]
    exact Memory.writeList_wf hwf (by omega)
  have hread : ∀ k < 31, (Memory.read q.u3.fbuf k).toNat = b k := by
    intro k hk
    dsimp only [b]
    rw [hframe, List.getD_append _ _ _ _ (by omega), hq.read hwf (by omega) (by omega)]
  have hfield : ∀ o, fieldOffsetWf o = true →
      (Memory.read q.u3.fbuf o).toNat * 256 + (Memory.read q.u3.fbuf (o + 1)).toNat = b o * 256 + b (o + 1) := by
    intro o ho
    rw [← be16_toNat, be16_toNat_of_offsetWf ho fun k hk => hread k (by omega)]
  have hsum : q.sum16.toNat = (Memory.read q.u3.fbuf 30).toNat * 256 + lo.toNat ↔
      hi.toNat * 256 + lo.toNat = 0x42 + 0x4D + (ds.map BitVec.toNat).sum := by
    have h30 : b 30 = hi.toNat := by simp [b, frame, hlen]
    rw [hq.sum_toNat hlen, hread 30 (by omega), h30, eq_comm]
  obtain ⟨t, hlast, -, -, -, -, -, hfirst, hcur, -, -, hvalid, hinvalid⟩ :=
    pushCompletesFrame q lo hq.sync (hq.cur.trans h31) hqwf (hq.cfg ▸ hc)
  refine ⟨t, ?_, hfirst, hcur, fun heq => ?_, fun hne => ?_⟩
  · rw [hframe, runInstrs_pushN_append hrun]
    exact runInstrs_cons hlast
  · obtain ⟨hrsp, -, hval, hmass, hcnt, -⟩ := hvalid (hsum.mpr heq)
    rw [hq.cfg] at hmass hcnt
    exact ⟨hrsp, hval, fun j => (hmass j).trans (hfield _ (Cfg.offsetsWf_mass hc j)),
      fun j => (hcnt j).trans (hfield _ (Cfg.offsetsWf_cnt hc j))⟩
  · obtain ⟨hrsp, -, hreading⟩ := hinvalid (mt hsum.mp hne)
    exact ⟨hrsp, hreading.trans hq.reading⟩

/-! ### Back to the empty assembly (R226) -/

/-- Nothing is stored and the sum is 0 (R33). -/
def AssemblyEmpty (s : State) : Prop := s.u3.syncState = .first ∧ s.u3.cur.val = 0 ∧ s.sum16 = 0x0000#16

/-- Part of a frame is stored, and `SYNC_STATE` is what R32 makes of `CUR`. -/
def Assembling (s : State) : Prop :=
  (s.u3.syncState = .second ∧ s.u3.cur.val = 1) ∨ (s.u3.syncState = .acc ∧ 2 ≤ s.u3.cur.val)

theorem FrameInv.empty_or_assembling {s : State} (hs : FrameInv s) : AssemblyEmpty s ∨ Assembling s := by
  cases hsync : s.u3.syncState with
  | first =>
    have hcur := hs.firstIff.mp hsync
    have hsum := hs.sumOfStored
    rw [hcur, Nat.zero_min, byteSum_zero] at hsum
    exact .inl ⟨hsync, hcur, hsum⟩
  | second => exact .inr (.inl ⟨hsync, hs.secondIff.mp hsync⟩)
  | acc => exact .inr (.inr ⟨hsync, hs.accIff.mp hsync⟩)

/-- Inside a frame no byte is skipped: it empties the assembly or is stored. -/
theorem PushStep.advances {d : Byte} {s t : State} (h : PushStep d s t) (hs : Assembling s) :
    AssemblyEmpty t ∨ (Assembling t ∧ t.u3.cur.val = s.u3.cur.val + 1) := by
  cases h with
  | skipped hsync | firstHeader hsync => simp [Assembling, hsync] at hs
  | secondHeader hsync =>
    have hcur : s.u3.cur.val = 1 := by simpa [Assembling, hsync] using hs
    exact .inr ⟨.inr ⟨rfl, le_rfl⟩, by rw [hcur]; rfl⟩
  | stored hsync =>
    have hcur : 2 ≤ s.u3.cur.val := by simpa [Assembling, hsync] using hs
    exact .inr ⟨.inr ⟨rfl, Nat.le_succ_of_le hcur⟩, rfl⟩
  | lost | valid | invalid => exact .inl ⟨rfl, rfl, rfl⟩

/-- Inside a frame the bytes that are still missing empty the assembly, the last of them at the latest. -/
theorem runInstrs_pushN_empties : ∀ {ds : List Byte} {s : State}, Assembling s → 32 ≤ s.u3.cur.val + ds.length →
    ∃ k t, k ≤ ds.length ∧ runInstrs (pushN (ds.take k)) s = .next t ∧ AssemblyEmpty t
  | [], s, _, hlen => absurd s.u3.cur.isLt (Nat.not_lt.mpr hlen)
  | d :: ds, s, hs, hlen => by
    rw [List.length_cons] at hlen ⊢
    obtain ⟨p, hexec, -⟩ := execPush_answered d s
    have hpush := execPush_step hexec
    rcases hpush.advances hs with hempty | ⟨hp, hcur⟩
    · exact ⟨1, p, by omega, runInstrs_pushN_cons hpush, hempty⟩
    · obtain ⟨k, t, hk, hrun, ht⟩ := runInstrs_pushN_empties (ds := ds) hp (by omega)
      exact ⟨k + 1, t, by omega, (runInstrs_pushN_cons hpush).trans hrun, ht⟩

/-- Settles O55: an empty assembly needs no byte, and any other misses at most 31. -/
theorem resyncWithin31Bytes : Obligations.ResyncWithin31Bytes := by
  intro s ds hs hlen
  rcases hs.empty_or_assembling with hempty | hassembling
  · exact ⟨0, s, Nat.zero_le _, rfl, hempty⟩
  · have hcur : 1 ≤ s.u3.cur.val := by
      rcases hassembling with ⟨-, h⟩ | ⟨-, h⟩ <;> omega
    obtain ⟨k, t, hk, hrun, ht⟩ := runInstrs_pushN_empties (ds := ds) hassembling (by omega)
    exact ⟨k, t, hlen ▸ hk, hrun, ht⟩

end Sys2Proof.Machine
end

section
/-! PROOFS. Unit U4: its one port in plain arithmetic (R240), and its four micro-operations (R241 to R244). -/

namespace Sys2Proof.Machine

open Sys2Proof

/-- R240's expression, read over the numbers: clear before add, and the carry out of bit 15 is dropped. -/
theorem sumNext_eq_ofNat (clr en : Bool) (d : Byte) (x : BitVec 16) :
    sumNext clr en d x =
      BitVec.ofNat 16 (((if clr then 0 else x.toNat) + (if en then d.toNat else 0)) % 65536) := by
  have hkept : (if clr then 0#16 else x).toNat = if clr then 0 else x.toNat := by cases clr <;> rfl
  have hadded : (if en then d.zeroExtend 16 else 0#16).toNat = if en then d.toNat else 0 := by
    cases en with
    | false => rfl
    | true => exact BitVec.toNat_setWidth_of_le (by decide)
  apply BitVec.eq_of_toNat_eq
  rw [sumNext, BitVec.toNat_add, hkept, hadded, BitVec.toNat_ofNat, Nat.mod_mod]

theorem sumNext_hold (d : Byte) (x : BitVec 16) : sumNext false false d x = x := BitVec.add_zero x

theorem sumNext_add (d : Byte) (x : BitVec 16) :
    sumNext false true d x = BitVec.ofNat 16 ((x.toNat + d.toNat) % 65536) := sumNext_eq_ofNat false true d x

theorem sumNext_clr (d : Byte) (x : BitVec 16) : sumNext true false d x = 0#16 := rfl

/-- A byte is below the modulus, so a load needs no reduction. -/
theorem sumNext_load (d : Byte) (x : BitVec 16) : sumNext true true d x = BitVec.ofNat 16 d.toNat := by
  have hmod : (0 + d.toNat) % 65536 = d.toNat := by have := d.isLt; omega
  exact (sumNext_eq_ofNat true true d x).trans (congrArg _ hmod)

/-- Driving U4's port is a whole step, and only `SUM16` depends on what the port carries. -/
theorem next_driveSum_of_sumNext {clr en : Bool} {d : Byte} {s : State} {x : BitVec 16}
    (h : sumNext clr en d s.sum16 = x) :
    (.next (s.driveSum clr en d) : Host.Outcome State Fault Refusal) = .next { s with sum16 := x } := by
  rw [State.driveSum, h]

/-- Settles O48: each operation drives U4's port once, with its own `clr` and `en`. -/
theorem sumMicroOperations : Obligations.SumMicroOperations := by
  refine fun s d => ⟨?hold, ?add, ?clr, ?load⟩
  case hold => exact next_driveSum_of_sumNext (sumNext_hold 0 s.sum16)
  case add => exact next_driveSum_of_sumNext (sumNext_add d s.sum16)
  case clr => exact next_driveSum_of_sumNext (sumNext_clr 0 s.sum16)
  case load => exact next_driveSum_of_sumNext (sumNext_load d s.sum16)

end Sys2Proof.Machine
end

section
/-! PROOFS. The host's commands on RXBUF (R252, R254, R256). -/

namespace Sys2Proof.Machine

open Sys2Proof

theorem exec_clrbuf (s : State) : exec .clrbuf s = .next ((s.setRxLen 0).respond .ok 0) := rfl

/-- Settles O60: RDBUF splits at `RXLEN` and LDBUF at 80, and the byte that LDBUF stores is the write's own read law. -/
theorem bufferCommands : Obligations.BufferCommands := by
  refine fun s i d => ⟨?readBelow, ?readAbove, ?append, ?full, ?clear⟩
  case readBelow => exact fun hi => exec_rdbuf_below hi
  case readAbove => exact fun hi => exec_rdbuf_above (Nat.not_lt.mpr hi)
  case append =>
    intro hroom hwf
    exact ⟨Memory.write s.u1.rxbuf s.u1.rxlen.val d, fun k => Memory.read_write hwf, exec_ldbuf_room hroom⟩
  case full => exact fun h80 => exec_ldbuf_full h80.not_lt
  case clear => exact exec_clrbuf s

end Sys2Proof.Machine
end

section
/-! PROOFS. The rejected DECODE (R181, R182, R273, R274), and what an outcome other than `OK` leaves of the results
(R288, R289). -/

namespace Sys2Proof.Machine

open Sys2Proof

/-! ### DECODE of a packet that fails a check (R181, R182) -/

/-- Settles O42: DECODE's first ending, at the length check and so before the CRC register is driven. -/
theorem decodeTooShort : Obligations.DecodeTooShort :=
  fun _ hlen => execDecode_short hlen.not_ge

/-- Settles O43: DECODE's second ending, at the CRC check, on the state that holds the packet's CRC. -/
theorem decodeChecksumMismatch : Obligations.DecodeChecksumMismatch :=
  fun _ hlen hcrc => execDecode_mismatch hlen hcrc

/-! ### Outcomes other than `OK` (R288, R289) -/

/-- Of DECODE's endings only the accepted one writes the weather latches, and it answers `OK`. -/
theorem DecodeStep.weather_of_not_ok {s t : State} (h : DecodeStep s t) (hne : t.out.rsp.map (·.code) ≠ some .ok) :
    t.u2.reading = s.u2.reading ∧ t.u2.familyWarn = s.u2.familyWarn := by
  cases h with
  | short | mismatch => exact ⟨rfl, rfl⟩
  | accepted => exact absurd rfl hne

/-- Of PUSH's endings only the valid frame writes the particulate latches, and it answers `OK`. -/
theorem PushStep.particulate_of_not_ok {d : Byte} {s t : State} (h : PushStep d s t)
    (hne : t.out.rsp.map (·.code) ≠ some .ok) : t.u3.reading = s.u3.reading := by
  cases h with
  | skipped | firstHeader | secondHeader | lost | stored | invalid => rfl
  | valid => exact absurd rfl hne

theorem exec_weather_of_not_ok {i : Instr} {s t : State} (h : exec i s = .next t)
    (hne : t.out.rsp.map (·.code) ≠ some .ok) :
    t.u2.reading = s.u2.reading ∧ t.u2.familyWarn = s.u2.familyWarn := by
  by_cases hi : i = .decode
  · subst hi
    exact (execDecode_step h).weather_of_not_ok hne
  · obtain ⟨c, hu2⟩ := exec_u2_of_not_decode hi h
    rw [hu2]
    exact ⟨rfl, rfl⟩

theorem exec_particulate_of_not_ok {i : Instr} {s t : State} (h : exec i s = .next t)
    (hne : t.out.rsp.map (·.code) ≠ some .ok) : t.u3.reading = s.u3.reading := by
  by_cases hi : ∀ d, i ≠ .push d
  · rw [exec_u3_of_not_push hi h]
  · obtain ⟨d, hd⟩ := not_forall_not.mp hi
    subst hd
    exact (execPush_step h).particulate_of_not_ok hne

/-- Settles O23: only DECODE writes the weather latches and only PUSH the particulate ones, each in an ending that
answers `OK`. -/
theorem errorOutcomesKeepReadings : Obligations.ErrorOutcomesKeepReadings := by
  intro i s t rsp _ h hrsp hcode
  have hne : t.out.rsp.map (·.code) ≠ some .ok := by
    rw [hrsp]
    exact fun hok => hcode (Option.some.inj hok)
  obtain ⟨hread, hwarn⟩ := exec_weather_of_not_ok h hne
  exact ⟨hread, hwarn, exec_particulate_of_not_ok h hne⟩

end Sys2Proof.Machine
end

section
/-! PROOFS. How many events a command emits (R331), and the one answer byte of INIT (R147). -/

namespace Sys2Proof.Machine

open Sys2Proof

/-- From `s` to `t`, a later state of the same command, at most `n` events are emitted. -/
def EmitsAtMost (n : Nat) (s t : State) : Prop := ∃ evs, t.out.trace = s.out.trace ++ evs ∧ evs.length ≤ n

/-- In either order INIT emits one event per table entry at most, the probe, and at most the re-arm pair; the probe
alone is answered (R145, R147, R148). -/
theorem execInit_emitsAtMost (b : BitVec 1) (s : State) :
    ∃ t, exec (.init b) s = .next t ∧ EmitsAtMost (s.cfg.table.length + 3) s t ∧
      t.inp.ansPos = s.inp.ansPos + 1 := by
  cases hf : s.cfg.probeFirst with
  | false =>
    obtain ⟨hfound, hmissing⟩ := initTableThenProbe b s hf
    by_cases hprobe : s.answerAt s.inp.ansPos = s.cfg.probeExpect
    · exact ⟨_, hfound hprobe, ⟨_, List.append_assoc .., by simp⟩, rfl⟩
    · exact ⟨_, hmissing hprobe, ⟨_, List.append_assoc .., by simp⟩, rfl⟩
  | true =>
    obtain ⟨hfound, hmissing⟩ := initProbeThenTable b s hf
    by_cases hprobe : s.answerAt s.inp.ansPos = s.cfg.probeExpect
    · refine ⟨_, hfound hprobe, ⟨_, (List.append_assoc ..).trans (List.append_assoc ..), ?_⟩, rfl⟩
      simp +arith
    · exact ⟨_, hmissing hprobe, ⟨_, rfl, by simp⟩, rfl⟩

/-- A POLL that returns a packet emits the three events of its occupancy reads, the burst and the re-arm pair, and no
other POLL emits more (R155 to R158). -/
theorem execPoll_emitsAtMost (s : State) : ∃ t, exec .poll s = .next t ∧ EmitsAtMost 6 s t := by
  obtain ⟨hoverflow, hempty⟩ := pollFirstRead s
  cases hovf : occOverflow s.cfg (s.answerAt s.inp.ansPos) with
  | true => exact ⟨_, hoverflow hovf, _, rfl, by simp⟩
  | false =>
    by_cases hcnt : occCount s.cfg (s.answerAt s.inp.ansPos) = 0
    · exact ⟨_, hempty hovf hcnt, _, rfl, by simp⟩
    · obtain ⟨hoverflowSettled, hemptySettled⟩ := pollSecondRead s hovf hcnt
      cases hovf2 : occOverflow s.cfg (s.answerAt (s.inp.ansPos + 1)) with
      | true => exact ⟨_, hoverflowSettled hovf2, _, rfl, by simp⟩
      | false =>
        by_cases hcnt2 : occCount s.cfg (s.answerAt (s.inp.ansPos + 1)) = 0
        · exact ⟨_, hemptySettled hovf2 hcnt2, _, rfl, by simp⟩
        · refine ⟨_, execPoll_packet hovf hcnt hovf2 hcnt2, ?_⟩
          rw [pollDrain_eq, State.pollReads_eq]
          exact ⟨_, List.append_assoc .., by simp⟩

/-- Settles O25: the bounds of INIT and POLL, and the commands that emit nothing. -/
theorem eventCountsBounded : Obligations.EventCountsBounded := by
  intro i s hi
  cases i with
  | init b =>
    obtain ⟨t, hexec, ⟨evs, htrace, hlen⟩, hans⟩ := execInit_emitsAtMost b s
    exact ⟨t, evs, hexec, htrace, hlen, hans⟩
  | poll =>
    obtain ⟨t, hexec, evs, htrace, hlen⟩ := execPoll_emitsAtMost s
    exact ⟨t, evs, hexec, htrace, hlen⟩
  | _ =>
    obtain ⟨t, hexec, -⟩ := exec_host_answered hi s
    obtain ⟨htrace, -⟩ := exec_trace_inp_of_not_init_poll hi nofun nofun hexec
    exact ⟨t, [], hexec, htrace.trans (List.append_nil _).symm, rfl⟩

end Sys2Proof.Machine
end
